-- ==== Sys2Proof/Word.lean ====
section
/-! DEFINITION. The machine's one word type, the unsigned 8-bit byte (spec/00_scope.md R7, R9), and the register number. -/

namespace Sys2Proof

/-- A byte: register contents, memory cells, PC, SP and FL are all unsigned 8-bit values (R7, R9). -/
abbrev Byte := BitVec 8

/-- A general register's number, R0 to R7 (spec/10_state.md R21). -/
abbrev Reg := Fin 8

/-- `u8(n) = n mod 256` (spec/00_scope.md R9). -/
abbrev u8 (n : Nat) : Byte := BitVec.ofNat 8 n

end Sys2Proof
end

