-- ==== Sys2Proof/Config.lean ====
section
/-! DEFINITION. What is fixed for this implementation (spec/00_scope.md R7) and the one text the spec leaves unspecified. -/

namespace Sys2Proof.Config

/-- The address space: 256 cells, addresses 0..255 (R7, spec/20_memory.md R50). -/
def memSize : Nat := 256

/-- The boot value of register 7 (spec/10_state.md R33). -/
def bootR7 : Byte := 0xF4#8

/-- pc at construction, the address of the first instruction (R33, spec/70_reset_and_hazards.md R221). -/
def resetVector : Byte := 0x00#8

/-- sp at construction. DESIGN CHOICE (log 1; unsafe): the spec leaves sp unspecified until run start (R27, R33). -/
def resetSp : Byte := 0x00#8

/-- The line break a host writes after a printed value (spec/92_eei_decisions.md D13; log 11). -/
def lineBreak : Char := '\n'

/-- The text of the modulo-by-zero diagnostic, which no source gives (D14, spec/93_implementation_defined.md I9):
a free value, so nothing can be proved of it (log 12; safe). -/
opaque diagText : List Char

end Sys2Proof.Config
end

