-- ==== Sys2Proof/Syntax.lean ====
section
/-! DEFINITION. The instructions: one constructor of `Instr` per row of spec/opcode_table.json, and the opcode names. -/

namespace Sys2Proof

/-- The 24 recognised operations, in the order of spec/opcode_table.json (spec/30_encoding.md R74). -/
inductive Mnemonic where
  | ldi | prn | hlt
  | add | mul | mod | cmp | and | or | xor | not | shl | shr
  | push | pop
  | jmp | jeq | jne | jgt | jlt | jle | jge
  | call | ret
  deriving DecidableEq, Repr

/-- The formats of the recognised instructions (spec/30_encoding.md R71). -/
inductive Format where
  /-- opcode only -/
  | f0
  /-- opcode and one register operand -/
  | f1
  /-- opcode and two register operands -/
  | f2r
  /-- opcode, a register operand and an immediate byte -/
  | f2i
  deriving DecidableEq, Repr

/-- How many operand bytes a format has (R71). -/
def Format.operandCount : Format → Nat
  | .f0 => 0
  | .f1 => 1
  | .f2r => 2
  | .f2i => 2

/-- A decoded instruction: register operands are already reduced modulo 8 (R73). -/
inductive Instr where
  | ldi (ra : Reg) (imm8 : Byte)
  | prn (ra : Reg)
  | hlt
  | add (ra rb : Reg)
  | mul (ra rb : Reg)
  | mod (ra rb : Reg)
  | cmp (ra rb : Reg)
  | and (ra rb : Reg)
  | or (ra rb : Reg)
  | xor (ra rb : Reg)
  | not (ra : Reg)
  | shl (ra rb : Reg)
  | shr (ra rb : Reg)
  | push (ra : Reg)
  | pop (ra : Reg)
  | jmp (ra : Reg)
  | jeq (ra : Reg)
  | jne (ra : Reg)
  | jgt (ra : Reg)
  | jlt (ra : Reg)
  | jle (ra : Reg)
  | jge (ra : Reg)
  | call (ra : Reg)
  | ret
  /-- An opcode byte that no row matches; its operand bytes are fetched and never used (spec/40_engine.md R97). -/
  | unrecognised (ir : Byte)
  deriving DecidableEq, Repr

/-- The operation an instruction names; `none` for the class UNRECOGNISED. -/
def Instr.mnemonic? : Instr → Option Mnemonic
  | .ldi _ _ => some .ldi
  | .prn _ => some .prn
  | .hlt => some .hlt
  | .add _ _ => some .add
  | .mul _ _ => some .mul
  | .mod _ _ => some .mod
  | .cmp _ _ => some .cmp
  | .and _ _ => some .and
  | .or _ _ => some .or
  | .xor _ _ => some .xor
  | .not _ => some .not
  | .shl _ _ => some .shl
  | .shr _ _ => some .shr
  | .push _ => some .push
  | .pop _ => some .pop
  | .jmp _ => some .jmp
  | .jeq _ => some .jeq
  | .jne _ => some .jne
  | .jgt _ => some .jgt
  | .jlt _ => some .jlt
  | .jle _ => some .jle
  | .jge _ => some .jge
  | .call _ => some .call
  | .ret => some .ret
  | .unrecognised _ => none

end Sys2Proof
end

