-- ==== Sys2Proof/Decode.lean ====
section
/-! DEFINITION. Encoding tables, the decoder, the encoder and the assembler text (spec/30_encoding.md, spec/40_engine.md R92). -/

namespace Sys2Proof

/-- One row of the opcode map. -/
structure OpcodeRow where
  byte : Byte
  mnemonic : Mnemonic
  format : Format
  deriving DecidableEq, Repr

/-- `OPCODE_MAP` (R74): the one table of opcode bytes. The byte values are the spec's decision D1, taken from the
general LS-8 and not from the source (UNVERIFIED, log 4; unsafe). -/
def opcodeMap : List OpcodeRow :=
  [ ⟨0x82#8, .ldi, .f2i⟩, ⟨0x47#8, .prn, .f1⟩, ⟨0x01#8, .hlt, .f0⟩ ] ++
  [ ⟨0xA0#8, .add, .f2r⟩, ⟨0xA2#8, .mul, .f2r⟩, ⟨0xA4#8, .mod, .f2r⟩, ⟨0xA7#8, .cmp, .f2r⟩, ⟨0xA8#8, .and, .f2r⟩,
    ⟨0xAA#8, .or, .f2r⟩, ⟨0xAB#8, .xor, .f2r⟩, ⟨0x69#8, .not, .f1⟩, ⟨0xAC#8, .shl, .f2r⟩, ⟨0xAD#8, .shr, .f2r⟩ ] ++
  [ ⟨0x45#8, .push, .f1⟩, ⟨0x46#8, .pop, .f1⟩ ] ++
  [ ⟨0x54#8, .jmp, .f1⟩, ⟨0x55#8, .jeq, .f1⟩, ⟨0x56#8, .jne, .f1⟩, ⟨0x57#8, .jgt, .f1⟩, ⟨0x58#8, .jlt, .f1⟩,
    ⟨0x59#8, .jle, .f1⟩, ⟨0x5A#8, .jge, .f1⟩, ⟨0x50#8, .call, .f1⟩, ⟨0x11#8, .ret, .f0⟩ ]

/-- The operand count, IR[7:6], of any opcode byte (R70, R78). -/
def operandCount (ir : Byte) : Nat := ir.toNat >>> 6

/-- The operation an opcode byte selects, comparing all 8 bits with the map (R72, R75). -/
def decodeOp (ir : Byte) : Option Mnemonic :=
  (opcodeMap.find? (fun row => row.byte == ir)).map (·.mnemonic)

/-- The map's row for an operation. -/
def rowOf (m : Mnemonic) : Option OpcodeRow :=
  opcodeMap.find? (fun row => row.mnemonic == m)

/-- The opcode byte of an operation, read from the same map. -/
def opcodeOf (m : Mnemonic) : Byte := ((rowOf m).map (·.byte)).getD 0x00#8

/-- `u3`: a register operand is the operand byte modulo 8; bits 7..3 are ignored (spec/10_state.md R21, R73). -/
def u3 (b : Byte) : Reg := ⟨b.toNat % 8, Nat.mod_lt _ (by decide)⟩

/-- The operand byte the encoder writes for a register: the ignored bits zero (log 16, DESIGN CHOICE). -/
def regByte (r : Reg) : Byte := u8 r.val

/-- operand_a, the first byte after the opcode; read only by instructions that have one (spec/40_engine.md R91). -/
def opa (ops : List Byte) : Byte := ops.getD 0 0x00#8

/-- operand_b, the second byte after the opcode; read only by instructions that have one (R91). -/
def opb (ops : List Byte) : Byte := ops.getD 1 0x00#8

/-- The operands of an operation from the fetched operand bytes (R71, R73). -/
def assemble (m : Mnemonic) (ops : List Byte) : Instr :=
  match m with
  | .ldi => .ldi (u3 (opa ops)) (opb ops)
  | .prn => .prn (u3 (opa ops))
  | .hlt => .hlt
  | .add => .add (u3 (opa ops)) (u3 (opb ops))
  | .mul => .mul (u3 (opa ops)) (u3 (opb ops))
  | .mod => .mod (u3 (opa ops)) (u3 (opb ops))
  | .cmp => .cmp (u3 (opa ops)) (u3 (opb ops))
  | .and => .and (u3 (opa ops)) (u3 (opb ops))
  | .or => .or (u3 (opa ops)) (u3 (opb ops))
  | .xor => .xor (u3 (opa ops)) (u3 (opb ops))
  | .not => .not (u3 (opa ops))
  | .shl => .shl (u3 (opa ops)) (u3 (opb ops))
  | .shr => .shr (u3 (opa ops)) (u3 (opb ops))
  | .push => .push (u3 (opa ops))
  | .pop => .pop (u3 (opa ops))
  | .jmp => .jmp (u3 (opa ops))
  | .jeq => .jeq (u3 (opa ops))
  | .jne => .jne (u3 (opa ops))
  | .jgt => .jgt (u3 (opa ops))
  | .jlt => .jlt (u3 (opa ops))
  | .jle => .jle (u3 (opa ops))
  | .jge => .jge (u3 (opa ops))
  | .call => .call (u3 (opa ops))
  | .ret => .ret

/-- The instruction decoder: total on every opcode byte; a byte that no row matches is UNRECOGNISED (R75, R92). -/
def decodeInstr (ir : Byte) (ops : List Byte) : Instr :=
  match decodeOp ir with
  | some m => assemble m ops
  | none => .unrecognised ir

/-- Why a list of bytes holds no whole instruction. The machine's fetch never meets either case. -/
inductive DecodeReject where
  /-- the list is empty -/
  | noOpcode
  /-- the opcode's two high bits ask for more operand bytes than the list has -/
  | missingOperand (ir : Byte)
  deriving DecidableEq, Repr

/-- Read one instruction from the front of a byte list, with the bytes after it. -/
def decode : List Byte → Except DecodeReject (Instr × List Byte)
  | [] => .error .noOpcode
  | ir :: rest =>
    if rest.length < operandCount ir then .error (.missingOperand ir)
    else .ok (decodeInstr ir (rest.take (operandCount ir)), rest.drop (operandCount ir))

/-- An instruction's opcode byte. -/
def Instr.opcode (i : Instr) : Byte :=
  match i with
  | .unrecognised ir => ir
  | .hlt => opcodeOf .hlt
  | .ret => opcodeOf .ret
  | .ldi _ _ => opcodeOf .ldi
  | .prn _ => opcodeOf .prn
  | .add _ _ => opcodeOf .add
  | .mul _ _ => opcodeOf .mul
  | .mod _ _ => opcodeOf .mod
  | .cmp _ _ => opcodeOf .cmp
  | .and _ _ => opcodeOf .and
  | .or _ _ => opcodeOf .or
  | .xor _ _ => opcodeOf .xor
  | .not _ => opcodeOf .not
  | .shl _ _ => opcodeOf .shl
  | .shr _ _ => opcodeOf .shr
  | .push _ => opcodeOf .push
  | .pop _ => opcodeOf .pop
  | .jmp _ => opcodeOf .jmp
  | .jeq _ => opcodeOf .jeq
  | .jne _ => opcodeOf .jne
  | .jgt _ => opcodeOf .jgt
  | .jlt _ => opcodeOf .jlt
  | .jle _ => opcodeOf .jle
  | .jge _ => opcodeOf .jge
  | .call _ => opcodeOf .call

/-- An instruction's operand bytes: ignored bits and discarded bytes are written as zero (R71; log 16,
DESIGN CHOICE). -/
def Instr.operandBytes (i : Instr) : List Byte :=
  match i with
  | .hlt | .ret => []
  | .ldi ra imm8 => [regByte ra, imm8]
  | .prn ra | .not ra | .push ra | .pop ra | .call ra => [regByte ra]
  | .jmp ra | .jeq ra | .jne ra | .jgt ra | .jlt ra | .jle ra | .jge ra => [regByte ra]
  | .add ra rb | .mul ra rb | .mod ra rb | .cmp ra rb => [regByte ra, regByte rb]
  | .and ra rb | .or ra rb | .xor ra rb | .shl ra rb | .shr ra rb => [regByte ra, regByte rb]
  | .unrecognised ir => List.replicate (operandCount ir) 0x00#8

/-- The encoder: the bytes of an instruction at ascending addresses (R70, R71). -/
def encode (i : Instr) : List Byte := i.opcode :: i.operandBytes

/-- The four bytes that a table word of `nbits` bits stands for, first byte lowest, zero above `nbits`
(four is the longest instruction, R78). -/
def tableBytes (nbits w : Nat) : List Byte :=
  let v := w % 2 ^ nbits
  [u8 v, u8 (v / 2 ^ 8), u8 (v / 2 ^ 16), u8 (v / 2 ^ 24)]

/-- The instruction the decoder reads from a table word laid out in memory order. -/
def decodeTableWord (nbits w : Nat) : Option Instr :=
  match decode (tableBytes nbits w) with
  | .ok (i, _) => some i
  | .error _ => none

/-- A byte in decimal with no sign and no leading zero. -/
def decimalDigits (v : Byte) : List Char :=
  let digit (d : Nat) : Char := Char.ofNat (48 + d)
  let n := v.toNat
  if n < 10 then [digit n]
  else if n < 100 then [digit (n / 10), digit (n % 10)]
  else [digit (n / 100), digit (n / 10 % 10), digit (n % 10)]

/-- A mnemonic in capitals (R79). -/
def Mnemonic.text : Mnemonic → List Char
  | .ldi => ['L', 'D', 'I']
  | .prn => ['P', 'R', 'N']
  | .hlt => ['H', 'L', 'T']
  | .add => ['A', 'D', 'D']
  | .mul => ['M', 'U', 'L']
  | .mod => ['M', 'O', 'D']
  | .cmp => ['C', 'M', 'P']
  | .and => ['A', 'N', 'D']
  | .or => ['O', 'R']
  | .xor => ['X', 'O', 'R']
  | .not => ['N', 'O', 'T']
  | .shl => ['S', 'H', 'L']
  | .shr => ['S', 'H', 'R']
  | .push => ['P', 'U', 'S', 'H']
  | .pop => ['P', 'O', 'P']
  | .jmp => ['J', 'M', 'P']
  | .jeq => ['J', 'E', 'Q']
  | .jne => ['J', 'N', 'E']
  | .jgt => ['J', 'G', 'T']
  | .jlt => ['J', 'L', 'T']
  | .jle => ['J', 'L', 'E']
  | .jge => ['J', 'G', 'E']
  | .call => ['C', 'A', 'L', 'L']
  | .ret => ['R', 'E', 'T']

/-- The operand part of an instruction's assembler text for its format; a register is `R0` to `R7`, an immediate
decimal (R79; log 17, DESIGN CHOICE). -/
def operandText (f : Format) (ops : List Byte) : List Char :=
  let reg (b : Byte) : List Char := 'R' :: decimalDigits (regByte (u3 b))
  match f with
  | .f0 => []
  | .f1 => ' ' :: reg (opa ops)
  | .f2r => ' ' :: (reg (opa ops) ++ ',' :: reg (opb ops))
  | .f2i => ' ' :: (reg (opa ops) ++ ',' :: decimalDigits (opb ops))

/-- An instruction in assembler syntax (R79, decision D21); the class UNRECOGNISED has none. -/
def Instr.asm (i : Instr) : Option (List Char) :=
  i.mnemonic?.bind fun m => (rowOf m).map fun row => m.text ++ operandText row.format i.operandBytes

end Sys2Proof
end

