-- ==== Sys2Proof/WellFormed.lean ====
section
/-! DEFINITION. The one check an instruction must pass that its type does not make: a byte called unrecognised is one that
no row of the opcode map matches (spec/30_encoding.md R75, R76). Register numbers and immediates are legal by their types. -/

namespace Sys2Proof

/-- `wf i` says that `i` is an instruction of this machine. -/
def Instr.wf (i : Instr) : Bool :=
  match i with
  | .unrecognised ir => (decodeOp ir).isNone
  | .ldi _ _ | .prn _ | .hlt => true
  | .add _ _ | .mul _ _ | .mod _ _ | .cmp _ _ | .and _ _ | .or _ _ | .xor _ _ | .not _ | .shl _ _ | .shr _ _ => true
  | .push _ | .pop _ => true
  | .jmp _ | .jeq _ | .jne _ | .jgt _ | .jlt _ | .jle _ | .jge _ => true
  | .call _ | .ret => true

end Sys2Proof
end

