-- ==== Sys2Proof/Machine/State.lean ====
section
/-! DEFINITION. The machine's state (spec/10_state.md R20), the reasons a step can stop, and the state after reset (R33). -/

namespace Sys2Proof.Machine

/-- Memory: (address, byte) pairs in canonical form (`Memory.wf`, in Machine/Ops.lean). -/
abbrev Memory := List Host.Cell

/-- The run status (R28). IDLE is the spec's name for constructed and not yet started (D16, log 14). -/
inductive Status where
  | idle
  | running
  | halted
  deriving DecidableEq, Repr

/-- Why the machine halted; `none` while IDLE or RUNNING (R29). -/
inductive HaltReason where
  | none
  | hlt
  | modZero
  deriving DecidableEq, Repr

/-- The output events (R30). -/
inductive Event where
  /-- PRN printed this register byte -/
  | print (v : Byte)
  /-- the modulo-by-zero guard's diagnostic -/
  | diagModZero
  deriving DecidableEq, Repr

/-- No constructor: "The hardware has no exceptions, traps or error signals" (spec/60_exceptions.md R200). Its two halts
are next states with status HALTED. -/
inductive Fault where
  deriving DecidableEq, Repr

/-- Reasons for which the model gives no next state. -/
inductive Refusal where
  /-- An instruction without a meaning, raised by no arm of this model; safe. -/
  | notModelled (mnemonic : String)
  /-- A step of, or a run start on, a HALTED machine: "the model gives it no step" (spec/60_exceptions.md R205, log 3).
  Raised by `transition` and `runStart`; safe. -/
  | halted
  /-- A host move allowed only while status is IDLE, made while RUNNING, or a load or preset made after the halt
  (spec/60_exceptions.md R213). Raised by `runStart`, `loadImage` and `presetReg`; safe. -/
  | notIdle
  /-- An image longer than memory, "the loader's error and is not modelled" (spec/70_reset_and_hazards.md R223).
  Raised by `loadImage`; safe. -/
  | imageTooLong
  deriving DecidableEq, Repr

/-- Everything the spec gives the machine (R20): "No other state exists". -/
structure State where
  /-- the 256 memory bytes (spec/20_memory.md R50) -/
  mem : Memory
  /-- R0 to R7 (R21) -/
  regs : Vector Byte 8
  /-- program counter (R24) -/
  pc : Byte
  /-- flags byte: bit 0 E, bit 1 G, bit 2 L (R25, R26) -/
  fl : Byte
  /-- stack pointer (R27) -/
  sp : Byte
  /-- run status (R28) -/
  status : Status
  /-- halt reason (R29) -/
  haltReason : HaltReason
  /-- output events, oldest first (R30) -/
  out : List Event
  deriving DecidableEq, Repr

/-- The machine after construction (R33). sp has no value there: `Config.resetSp` is the model's (log 1). -/
def State.reset : State where
  mem := []
  regs := #v[0x00#8, 0x00#8, 0x00#8, 0x00#8, 0x00#8, 0x00#8, 0x00#8, Config.bootR7]
  pc := Config.resetVector
  fl := 0x00#8
  sp := Config.resetSp
  status := .idle
  haltReason := .none
  out := []

end Sys2Proof.Machine
end

