-- ==== Sys2Proof/Machine/Ops.lean ====
section
/-! DEFINITION. The named operations over memory, registers, pc, sp, FL, status and output that every meaning is built from
(spec/00_scope.md R10, spec/20_memory.md R51, spec/43_stack.md R150). -/

namespace Sys2Proof.Machine

/-- What an address that the list does not hold reads as: memory is zeroed at construction (spec/10_state.md R33). -/
def Memory.unlisted : Byte := 0x00#8

/-- The byte at an address. -/
def Memory.read : Memory → Nat → Byte
  | [], _ => Memory.unlisted
  | (k, v) :: rest, a => if k = a then v else Memory.read rest a

/-- Put a cell in front of a memory, unless it holds what an unlisted address reads as. -/
def Memory.cell (a : Nat) (v : Byte) (rest : Memory) : Memory :=
  if v = Memory.unlisted then rest else (a, v) :: rest

/-- Store a byte, keeping the canonical form. -/
def Memory.write : Memory → Nat → Byte → Memory
  | [], a, v => Memory.cell a v []
  | (k, w) :: rest, a, v =>
    if a < k then Memory.cell a v ((k, w) :: rest)
    else if a = k then Memory.cell a v rest
    else (k, w) :: Memory.write rest a v

/-- Canonical from an address on: addresses strictly rising and inside memory, no cell that an unlisted address would equal. -/
def Memory.wfFrom : Nat → Memory → Bool
  | _, [] => true
  | lo, (k, v) :: rest =>
    decide (lo ≤ k) && decide (k < Config.memSize) && decide (v ≠ Memory.unlisted) && Memory.wfFrom (k + 1) rest

/-- The canonical form: equal memories are equal data. -/
def Memory.wf (m : Memory) : Bool := Memory.wfFrom 0 m

/-- `MemRead(a, 1)` (R51): the address is a byte, so it is already modulo 256 and no access can fail. -/
def State.memRead (s : State) (a : Byte) : Byte := s.mem.read a.toNat

/-- `MemWrite(a, 1, v)` (R51). -/
def State.memWrite (s : State) (a v : Byte) : State := { s with mem := s.mem.write a.toNat v }

/-- `x[r]` (spec/10_state.md R21): no register is hardwired. -/
def State.reg (s : State) (r : Reg) : Byte := s.regs[r]

/-- `x[r] <- v`. -/
def State.setReg (s : State) (r : Reg) (v : Byte) : State := { s with regs := s.regs.set r v }

/-- `pc <- t`. -/
def State.setPc (s : State) (t : Byte) : State := { s with pc := t }

/-- `sp <- t`. -/
def State.setSp (s : State) (t : Byte) : State := { s with sp := t }

/-- `fl <- t`: the whole byte is overwritten, never merged (R25). -/
def State.setFl (s : State) (t : Byte) : State := { s with fl := t }

/-- `emit(e)`: append to the output stream (R30). -/
def State.emit (s : State) (e : Event) : State := { s with out := s.out ++ [e] }

/-- `halt(r)` (R29): the two fields a halt writes; nothing is saved and no vector is taken (spec/60_exceptions.md R204). -/
def State.halt (s : State) (r : HaltReason) : State := { s with status := .halted, haltReason := r }

/-- The address the next push stores to: the decremented sp, modulo 256 with no bounds check (R150). -/
def pushAddr (s : State) : Byte := s.sp - 1

/-- `push(v)`: decrement sp, then store at sp (R150). It never touches R7 (spec/10_state.md R22,
decision D10, UNVERIFIED, log 13). -/
def State.push (s : State) (v : Byte) : State := (s.setSp (pushAddr s)).memWrite (pushAddr s) v

/-- The byte `pop()` returns: the one at sp, whether or not anything was pushed there (R150, R153). -/
def popValue (s : State) : Byte := s.memRead s.sp

/-- What `pop()` leaves: sp incremented modulo 256, memory as it was (R150, R153). -/
def State.popped (s : State) : State := s.setSp (s.sp + 1)

/-- `pc <- u8(pc + n + 1)`, which ends every instruction (spec/40_engine.md R95). -/
def State.advance (s : State) (n : Nat) : State := s.setPc (s.pc + u8 (n + 1))

/-- The end of an instruction with `n` operand bytes, control transfers and halts included (R95, R96). -/
def finish (n : Nat) (s : State) : Host.Outcome State Fault Refusal := .next (s.advance n)

/-- Store bytes at ascending addresses, each wrapped modulo 256. -/
def State.storeBytes (s : State) (a : Byte) : List Byte → State
  | [] => s
  | v :: rest => (s.memWrite a v).storeBytes (a + 1) rest

/-- The bytes at `k` ascending addresses from `a`, each wrapped modulo 256 (spec/20_memory.md R53). -/
def State.bytesAt (s : State) (a : Byte) : Nat → List Byte
  | 0 => []
  | k + 1 => s.memRead a :: s.bytesAt (a + 1) k

end Sys2Proof.Machine
end

