-- ==== Sys2Proof/Machine/Flags.lean ====
section
/-! DEFINITION. The flags byte: CMP's three codes and the six conditions on FL's exact value (spec/10_state.md R25, R26,
spec/42_alu.md R124, spec/44_control_transfer.md R162 to R169). -/

namespace Sys2Proof.Machine

/-- E: the last CMP found regA == regB. -/
def flagE : Byte := 0b001#8

/-- G: the last CMP found regA > regB (direction: decision D4, UNVERIFIED, log 6). -/
def flagG : Byte := 0b010#8

/-- L: the last CMP found regA < regB (direction: decision D4, UNVERIFIED, log 6). -/
def flagL : Byte := 0b100#8

/-- CMP's new FL: an unsigned comparison of regA with regB (R124). -/
def compareFlags (a b : Byte) : Byte :=
  if a.toNat = b.toNat then flagE else if a.toNat > b.toNat then flagG else flagL

/-- FL is one of the four values it can hold (R25). -/
def legalFl (fl : Byte) : Bool := fl == 0#8 || fl == flagE || fl == flagG || fl == flagL

/-- JEQ: fl == 0b001 (R163). -/
def condJeq (fl : Byte) : Bool := fl == 0b001#8

/-- JNE: fl is even (R164). -/
def condJne (fl : Byte) : Bool := fl.toNat % 2 == 0

/-- JGE: fl == 0b001 or fl == 0b100, kept literally (R165, decision D3, log 6). -/
def condJge (fl : Byte) : Bool := fl == 0b001#8 || fl == 0b100#8

/-- JGT: fl == 0b100, kept literally (R166, decision D3, log 6). -/
def condJgt (fl : Byte) : Bool := fl == 0b100#8

/-- JLE: fl == 0b010 or fl == 0b000, kept literally (R167, decision D3, log 6). -/
def condJle (fl : Byte) : Bool := fl == 0b010#8 || fl == 0b000#8

/-- JLT: fl == 0b010, kept literally (R168, decision D3, log 6). -/
def condJlt (fl : Byte) : Bool := fl == 0b010#8

end Sys2Proof.Machine
end

