-- ==== Sys2Proof/Machine/Operands.lean ====
section
/-! DEFINITION. The operand forms (spec/30_encoding.md R71, R73): a register, a pair of registers, an immediate byte, and a
register holding a jump target; and the two shapes of instruction that write one register. -/

namespace Sys2Proof.Machine

/-- The value of a register operand, read before any write of its instruction (spec/40_engine.md R94). -/
abbrev regValue (s : State) (ra : Reg) : Byte := s.reg ra

/-- The immediate operand: the whole byte, unsigned, neither extended nor scaled (R73). -/
abbrev immValue (imm8 : Byte) : Byte := imm8

/-- The jump target: always the full byte of a register, never an immediate and never relative (R73,
spec/44_control_transfer.md R160). -/
abbrev targetValue (s : State) (ra : Reg) : Byte := s.reg ra

/-- Two register operands to one result in regA (format F2R, spec/42_alu.md R120): both are read before the write. -/
def binaryOp (f : Byte → Byte → Byte) (ra rb : Reg) (s : State) : Host.Outcome State Fault Refusal :=
  finish 2 (s.setReg ra (f (regValue s ra) (regValue s rb)))

/-- One register operand to a result in the same register (format F1). -/
def unaryOp (f : Byte → Byte) (ra : Reg) (s : State) : Host.Outcome State Fault Refusal :=
  finish 1 (s.setReg ra (f (regValue s ra)))

end Sys2Proof.Machine
end

