-- ==== Sys2Proof/Machine/Alu.lean ====
section
/-! DEFINITION. The ALU: its pure byte functions and the ten instructions (spec/42_alu.md R120 to R130). -/

namespace Sys2Proof.Machine

/-- `u8(A + B)` (R121); the carry is recorded nowhere. -/
def aluAdd (a b : Byte) : Byte := a + b

/-- `u8(A * B)` (R122); the high byte of the product is lost. -/
def aluMul (a b : Byte) : Byte := a * b

/-- `A % B`, used only when B != 0 (R123). -/
def aluMod (a b : Byte) : Byte := a % b

/-- `A & B` (R125). -/
def aluAnd (a b : Byte) : Byte := a &&& b

/-- `A | B` (R126). -/
def aluOr (a b : Byte) : Byte := a ||| b

/-- `A ^ B` (R127). -/
def aluXor (a b : Byte) : Byte := a ^^^ b

/-- `255 - A` (R128). -/
def aluNot (a : Byte) : Byte := ~~~a

/-- The result of SHL by 8 or more: 0 by the rule; the source calls it implementation-defined (R129, decision D5,
UNVERIFIED, log 7; unsafe). -/
def shlOversize (_a _b : Byte) : Byte := 0x00#8

/-- The result of SHR by 8 or more: 0 by the rule (R130, decision D5, UNVERIFIED, log 7; unsafe). -/
def shrOversize (_a _b : Byte) : Byte := 0x00#8

/-- `u8(A << B)` for B < 8 (R129); the amount is not masked. -/
def aluShl (a b : Byte) : Byte := if b.toNat < 8 then a <<< b.toNat else shlOversize a b

/-- `A >> B` for B < 8, logical (R130); the amount is not masked. -/
def aluShr (a b : Byte) : Byte := if b.toNat < 8 then a >>> b.toNat else shrOversize a b

/-- ADD (R121). -/
def execAdd (ra rb : Reg) (s : State) : Host.Outcome State Fault Refusal := binaryOp aluAdd ra rb s

/-- MUL (R122). -/
def execMul (ra rb : Reg) (s : State) : Host.Outcome State Fault Refusal := binaryOp aluMul ra rb s

/-- MOD (R123): the engine's guard comes first; when regB is 0 neither x[ra] nor fl is written, the diagnostic is emitted and
the machine halts, and the advance still happens (spec/40_engine.md R96, decision D8, UNVERIFIED, log 8). -/
def execMod (ra rb : Reg) (s : State) : Host.Outcome State Fault Refusal :=
  if regValue s rb = 0x00#8 then finish 2 ((s.emit .diagModZero).halt .modZero)
  else binaryOp aluMod ra rb s

/-- CMP (R124): the only instruction that writes FL; it writes no register. -/
def execCmp (ra rb : Reg) (s : State) : Host.Outcome State Fault Refusal :=
  finish 2 (s.setFl (compareFlags (regValue s ra) (regValue s rb)))

/-- AND (R125). -/
def execAnd (ra rb : Reg) (s : State) : Host.Outcome State Fault Refusal := binaryOp aluAnd ra rb s

/-- OR (R126). -/
def execOr (ra rb : Reg) (s : State) : Host.Outcome State Fault Refusal := binaryOp aluOr ra rb s

/-- XOR (R127). -/
def execXor (ra rb : Reg) (s : State) : Host.Outcome State Fault Refusal := binaryOp aluXor ra rb s

/-- NOT (R128): one operand byte, so two bytes long. -/
def execNot (ra : Reg) (s : State) : Host.Outcome State Fault Refusal := unaryOp aluNot ra s

/-- SHL (R129). -/
def execShl (ra rb : Reg) (s : State) : Host.Outcome State Fault Refusal := binaryOp aluShl ra rb s

/-- SHR (R130). -/
def execShr (ra rb : Reg) (s : State) : Host.Outcome State Fault Refusal := binaryOp aluShr ra rb s

end Sys2Proof.Machine
end

