-- ==== Sys2Proof/Machine/ControlTransfer.lean ====
section
/-! DEFINITION. Jumps, CALL and RET (spec/44_control_transfer.md). Each writes a biased pc that the common advance then brings to
the target (R160, decision D2, UNVERIFIED, log 5). -/

namespace Sys2Proof.Machine

/-- `jump(t)`: `pc <- u8(x[t] - 2)`; the advance of 2 follows (R160). -/
def State.jump (s : State) (t : Byte) : State := s.setPc (t - 2)

/-- The one form of the conditional jumps (R162): the target register is read only when the jump is taken. -/
def jumpIf (cond : Bool) (ra : Reg) (s : State) : Host.Outcome State Fault Refusal :=
  if cond then finish 1 (s.jump (targetValue s ra)) else finish 1 s

/-- JMP (R161). -/
def execJmp (ra : Reg) (s : State) : Host.Outcome State Fault Refusal := finish 1 (s.jump (targetValue s ra))

/-- JEQ (R163). -/
def execJeq (ra : Reg) (s : State) : Host.Outcome State Fault Refusal := jumpIf (condJeq s.fl) ra s

/-- JNE (R164). -/
def execJne (ra : Reg) (s : State) : Host.Outcome State Fault Refusal := jumpIf (condJne s.fl) ra s

/-- JGT (R166): taken after a CMP that found regA < regB. -/
def execJgt (ra : Reg) (s : State) : Host.Outcome State Fault Refusal := jumpIf (condJgt s.fl) ra s

/-- JLT (R168): taken after a CMP that found regA > regB. -/
def execJlt (ra : Reg) (s : State) : Host.Outcome State Fault Refusal := jumpIf (condJlt s.fl) ra s

/-- JLE (R167): taken after a CMP that found regA > regB, and before any CMP. -/
def execJle (ra : Reg) (s : State) : Host.Outcome State Fault Refusal := jumpIf (condJle s.fl) ra s

/-- JGE (R165): taken after a CMP that found regA == regB or regA < regB. -/
def execJge (ra : Reg) (s : State) : Host.Outcome State Fault Refusal := jumpIf (condJge s.fl) ra s

/-- The byte CALL pushes: the address of its own operand byte (R171). -/
def returnByte (s : State) : Byte := s.pc + 1

/-- CALL (R172): the target is read first, the return byte pushed, then the biased pc written. -/
def execCall (ra : Reg) (s : State) : Host.Outcome State Fault Refusal :=
  finish 1 ((s.push (returnByte s)).jump (targetValue s ra))

/-- RET (R173): the popped byte goes to pc with no bias; the advance of 1 follows. -/
def execRet (s : State) : Host.Outcome State Fault Refusal :=
  finish 0 (s.popped.setPc (popValue s))

end Sys2Proof.Machine
end

