-- ==== Sys2Proof/Machine/LoadPrintHalt.lean ====
section
/-! DEFINITION. LDI, PRN, HLT (spec/41_load_print_halt.md R110 to R112). -/

namespace Sys2Proof.Machine

/-- LDI (R110): `x[ra] <- imm8`. To R7 it leaves sp alone (spec/10_state.md R22). -/
def execLdi (ra : Reg) (imm8 : Byte) (s : State) : Host.Outcome State Fault Refusal :=
  finish 2 (s.setReg ra (immValue imm8))

/-- PRN (R111): `emit(Print(x[ra]))`, within the step. -/
def execPrn (ra : Reg) (s : State) : Host.Outcome State Fault Refusal :=
  finish 1 (s.emit (.print (regValue s ra)))

/-- HLT (R112): `halt(HLT)`; the step's advance still happens (spec/40_engine.md R96, decision D9, UNVERIFIED, log 9). -/
def execHlt (s : State) : Host.Outcome State Fault Refusal :=
  finish 0 (s.halt .hlt)

end Sys2Proof.Machine
end

