-- ==== Sys2Proof/Machine/Stack.lean ====
section
/-! DEFINITION. PUSH and POP (spec/43_stack.md R150 to R153). -/

namespace Sys2Proof.Machine

/-- PUSH (R151): the register is read, then pushed. -/
def execPush (ra : Reg) (s : State) : Host.Outcome State Fault Refusal :=
  finish 1 (s.push (regValue s ra))

/-- POP (R152): the byte at sp goes to the register; memory keeps it; POP R7 does not change sp further. -/
def execPop (ra : Reg) (s : State) : Host.Outcome State Fault Refusal :=
  finish 1 (s.popped.setReg ra (popValue s))

end Sys2Proof.Machine
end

