-- ==== Sys2Proof/Machine/Unrecognised.lean ====
section
/-! DEFINITION. The class UNRECOGNISED (spec/40_engine.md R97). -/

namespace Sys2Proof.Machine

/-- An opcode byte that no row matches: a no-op of `1 + (IR >> 6)` bytes (R97, spec/30_encoding.md R76, decision D6, UNVERIFIED,
log 10). -/
def execUnrecognised (ir : Byte) (s : State) : Host.Outcome State Fault Refusal := finish (operandCount ir) s

end Sys2Proof.Machine
end

