-- ==== Sys2Proof/Machine/HostMoves.lean ====
section
/-! DEFINITION. What the host does to the machine (spec/60_exceptions.md R213): load, preset a register, start the run, render
the output. -/

namespace Sys2Proof.Machine

/-- Run start (spec/70_reset_and_hazards.md R222), only from IDLE: `sp <- x[7]; status <- RUNNING`
(decision D10, UNVERIFIED, log 13). -/
def runStart (s : State) : Host.Outcome State Fault Refusal :=
  match s.status with
  | .idle => .next { s.setSp (s.reg 7) with status := .running }
  | .running => .refused .notIdle
  | .halted => .refused .halted

/-- Load an image of at most 256 bytes at ascending addresses from 0, before run start (R223; log 15,
DEDUCED). -/
def loadImage (image : List Byte) (s : State) : Host.Outcome State Fault Refusal :=
  match s.status with
  | .idle => if image.length ≤ Config.memSize then .next (s.storeBytes 0x00#8 image) else .refused .imageTooLong
  | .running => .refused .notIdle
  | .halted => .refused .notIdle

/-- The host writes a register before run start (R222, R224, decision D28): how another stack base is chosen
(log 15, DEDUCED). -/
def presetReg (r : Reg) (v : Byte) (s : State) : Host.Outcome State Fault Refusal :=
  match s.status with
  | .idle => .next (s.setReg r v)
  | .running => .refused .notIdle
  | .halted => .refused .notIdle

/-- The characters the host writes for an event: a printed byte in unsigned decimal and a line break (spec/41_load_print_halt.md
R111, decision D13, UNVERIFIED, log 11); the diagnostic's text is free (decision D14, log 12). -/
def renderEvent (e : Event) : List Char :=
  match e with
  | .print v => decimalDigits v ++ [Config.lineBreak]
  | .diagModZero => Config.diagText

end Sys2Proof.Machine
end

