-- ==== Sys2Proof/Machine/Engine.lean ====
section
/-! DEFINITION. The execution engine: fetch, the instruction cycle, and the machine's one transition (spec/40_engine.md). -/

namespace Sys2Proof.Machine

/-- The fetch_unit's latches, alive during one step only (R91, spec/10_state.md R32). -/
structure Fetched where
  /-- the opcode byte -/
  ir : Byte
  /-- the operand bytes that were fetched, operand_a first: as many as the opcode's two high bits give -/
  ops : List Byte
  deriving DecidableEq, Repr

/-- Fetch the opcode byte at pc, then `IR >> 6` operand bytes, each address wrapped modulo 256 (R90 lines 1 to 3, R91). -/
def fetch (s : State) : Fetched :=
  { ir := s.memRead s.pc, ops := s.bytesAt (s.pc + 1) (operandCount (s.memRead s.pc)) }

/-- One whole instruction (R90): fetch everything, decode, execute; the advance is the end of every handler. -/
def engineStep (s : State) : Host.Outcome State Fault Refusal :=
  exec (decodeInstr (fetch s).ir (fetch s).ops) s

/-- The machine's transition by run status (spec/10_state.md R28): an IDLE machine is started by the host (log 2,
DESIGN CHOICE, unsafe), a RUNNING one
executes one instruction (R90), and a HALTED one has no step (spec/60_exceptions.md R205, log 3, DEDUCED). -/
def transition (s : State) : Host.Outcome State Fault Refusal :=
  match s.status with
  | .idle => runStart s
  | .running => engineStep s
  | .halted => .refused .halted

/-- The machine as run start leaves it, made RUNNING whatever its status was; used only to place a first instruction (log 2). -/
def State.started (s : State) : State :=
  match s.status with
  | .idle => { s.setSp (s.reg 7) with status := .running }
  | .running => s
  | .halted => { s with status := .running, haltReason := .none }

end Sys2Proof.Machine
end

