-- ==== Sys2Proof/Machine/Step.lean ====
section
/-! DEFINITION. The step the host's interface runs, and the placing of one instruction where the next step fetches it. -/

namespace Sys2Proof.Machine

/-- One step of the machine: `transition`, in Machine/Engine.lean. -/
def step (s : State) : Host.Outcome State Fault Refusal := transition s

/-- `s` with a table word's four bytes stored from pc on (addresses wrap) and the run started, so that the very next step runs
that instruction (log 2). -/
def State.withFetchWord (s : State) (nbits w : Nat) : State :=
  s.started.storeBytes s.pc (tableBytes nbits w)

end Sys2Proof.Machine
end

