-- ==== Sys2Proof/Safety.lean ====
section
/-! DEFINITION. The terms statements use: what an instruction leaves unchanged, the machine's invariant, and short runs of
instructions. -/

namespace Sys2Proof.Machine

/-- A piece of the state that a statement may name; pc is not among them, since every instruction moves it. -/
inductive Part where
  | reg (r : Reg)
  | fl
  | sp
  | mem (a : Byte)
  | status
  | haltReason
  | out
  deriving DecidableEq, Repr

/-- From `s` to `t` every piece of the state outside `parts` is as before: each register, FL, sp, each byte of memory read one
at a time, the status, the halt reason and the output. pc may differ. -/
structure KeepsBut (parts : List Part) (s t : State) : Prop where
  reg : ∀ r, Part.reg r ∉ parts → t.reg r = s.reg r
  fl : Part.fl ∉ parts → t.fl = s.fl
  sp : Part.sp ∉ parts → t.sp = s.sp
  mem : ∀ a, Part.mem a ∉ parts → t.memRead a = s.memRead a
  status : Part.status ∉ parts → t.status = s.status
  haltReason : Part.haltReason ∉ parts → t.haltReason = s.haltReason
  out : Part.out ∉ parts → t.out = s.out

/-- What every step keeps: memory canonical, FL one of its four values (spec/10_state.md R25), a halt reason exactly when HALTED
(R28, R29), and the diagnostic in the output exactly when the halt reason is MOD_ZERO (R30, spec/42_alu.md R123). -/
structure State.Inv (s : State) : Prop where
  memWf : s.mem.wf = true
  flLegal : legalFl s.fl = true
  haltReasonIffHalted : s.haltReason ≠ .none ↔ s.status = .halted
  diagIffModZero : Event.diagModZero ∈ s.out ↔ s.haltReason = .modZero

/-- Execute a list of instructions one after another, without fetching them; a stop ends it. -/
def execAll : List Instr → State → Host.Outcome State Fault Refusal
  | [], s => .next s
  | i :: rest, s =>
    match exec i s with
    | .next t => execAll rest t
    | .fault r => .fault r
    | .refused r => .refused r

/-- Push a list of bytes, the head first. -/
def State.pushAll (s : State) : List Byte → State
  | [] => s
  | v :: rest => (s.push v).pushAll rest

/-- The bytes that `k` pops return, the first popped first. -/
def popAll (s : State) : Nat → List Byte
  | 0 => []
  | k + 1 => popValue s :: popAll s.popped k

end Sys2Proof.Machine
end

