-- ==== Sys2Proof/Certificates/Slice0/Obligations.lean ====
section
/-! DEFINITION. The statements for the provers. Each docstring says which rule of spec/ it formalises and, where it rests on one
of the spec's own decisions (D<n>) or on a choice of the model (log <n>), says so. -/

open Sys2Proof Sys2Proof.Machine

/-! ## Reset and the host's moves -/

/-- spec/10_state.md R33: memory zero, R0 to R6 zero, R7 = 0xF4, pc = 0, FL = 0, status IDLE, no halt reason, no output (the
last three by the spec's decisions D16 and D13). sp, which R33 leaves unspecified, is not named. -/
def Obligations.ResetLeavesTheConstructionValues : Prop :=
  (∀ a : Byte, State.reset.memRead a = 0x00#8) ∧ (∀ r : Reg, r ≠ 7 → State.reset.reg r = 0x00#8) ∧
    State.reset.reg 7 = 0xF4#8 ∧ State.reset.pc = 0x00#8 ∧ State.reset.fl = 0x00#8 ∧
    State.reset.status = .idle ∧ State.reset.haltReason = .none ∧ State.reset.out = []

/-- The state after reset meets the invariant that every step keeps. -/
def Obligations.ResetMeetsTheInvariant : Prop := State.reset.Inv

/-- spec/70_reset_and_hazards.md R222: `sp <- x[7]; status <- RUNNING` and nothing else, with sp = 0xF4 from reset. That the step
of an IDLE machine is this move is the model's choice (log 2); that IDLE exists is the spec's decision D16. -/
def Obligations.RunStartCopiesR7ToSp : Prop :=
  (∀ s : State, s.status = .idle →
      ∃ t, step s = .next t ∧ runStart s = .next t ∧ t.sp = s.reg 7 ∧ t.status = .running ∧ t.pc = s.pc ∧
        KeepsBut [.sp, .status] s t) ∧
    ∃ t, step State.reset = .next t ∧ t.sp = 0xF4#8

/-- spec/60_exceptions.md R205, R213: a HALTED machine has no next state by a step, run start, load or preset, and a RUNNING
machine always has one. That its step and run start have no next state, and not a repeated one, is log 3 (DEDUCED); that a load
and a preset have none after the halt is log 15 (DEDUCED). -/
def Obligations.HaltedIsTerminalAndRunningNeverWaits : Prop :=
  (∀ s : State, s.status = .halted → ∀ t : State,
      step s ≠ .next t ∧ runStart s ≠ .next t ∧ (∀ image, loadImage image s ≠ .next t) ∧
        ∀ r v, presetReg r v s ≠ .next t) ∧
    ∀ s : State, s.status = .running → ∃ t, step s = .next t

/-- spec/70_reset_and_hazards.md R223 (decision D24): an image of at most 256 bytes lands at ascending addresses from 0, every
cell past it is as before and nothing else changes; a longer image is refused. -/
def Obligations.LoadWritesTheImageFromAddressZero : Prop :=
  ∀ (s : State) (image : List Byte), s.status = .idle → s.mem.wf = true →
    (image.length ≤ 256 →
      ∃ t, loadImage image s = .next t ∧ (∀ k (h : k < image.length), t.memRead (u8 k) = image[k]) ∧
        (∀ a : Byte, image.length ≤ a.toNat → t.memRead a = s.memRead a) ∧ t = { s with mem := t.mem }) ∧
    (256 < image.length → loadImage image s = .refused .imageTooLong)

/-! ## Memory -/

/-- spec/20_memory.md R51: addresses and values are taken modulo 256; a write changes that cell and no other, and nothing of the
state but memory. The premise is the canonical form, which `StepKeepsTheInvariant` keeps. -/
def Obligations.MemoryReadReturnsTheLatestWrite : Prop :=
  ∀ (s : State) (addr other value : Nat), s.mem.wf = true →
    (s.memWrite (u8 addr) (u8 value)).memRead (u8 other) =
        (if addr % 256 = other % 256 then u8 value else s.memRead (u8 other)) ∧
      s.memWrite (u8 addr) (u8 value) = { s with mem := (s.memWrite (u8 addr) (u8 value)).mem }

/-- The canonical form makes equal memories equal data: two canonical memories that read alike at all 256 addresses are the same
list. The form is the model's own; that an unlisted byte is 0 is spec/10_state.md R33. -/
def Obligations.CanonicalMemoriesThatReadAlikeAreEqual : Prop :=
  ∀ m m' : Memory, m.wf = true → m'.wf = true → (∀ a : Byte, m.read a.toNat = m'.read a.toNat) → m = m'

/-! ## Fetch and decode -/

/-- spec/30_encoding.md R70: the opcode byte at pc, then `IR >> 6` operand bytes at the following addresses, each modulo 256. -/
def Obligations.FetchReadsOpcodeThenOperandBytes : Prop :=
  ∀ s : State, (fetch s).ir = s.memRead s.pc ∧ (fetch s).ops.length = (fetch s).ir.toNat / 64 ∧
    ∀ k (h : k < (fetch s).ops.length), (fetch s).ops[k] = s.memRead (u8 (s.pc.toNat + k + 1))

/-- spec/30_encoding.md R75: a byte in the opcode map decodes to that instruction, every other byte to UNRECOGNISED, and the
operand count is produced for every byte. -/
def Obligations.DecoderMatchesTheWholeOpcodeByte : Prop :=
  ∀ (ir : Byte) (ops : List Byte),
    (∀ row ∈ opcodeMap, row.byte = ir → (decodeInstr ir ops).mnemonic? = some row.mnemonic) ∧
      ((∀ row ∈ opcodeMap, row.byte ≠ ir) → decodeInstr ir ops = .unrecognised ir) ∧
      operandCount ir = ir.toNat / 64

/-- spec/30_encoding.md R74: 24 rows, one per operation, no byte twice, each format's operand count the byte's two high bits,
with the bytes that the spec's decision D1 adopts from general knowledge (log 4). -/
def Obligations.OpcodeMapIsInjectiveWithMatchingCounts : Prop :=
  opcodeMap.length = 24 ∧ (opcodeMap.map (·.byte)).Nodup ∧ (opcodeMap.map (·.mnemonic)).Nodup ∧
    (∀ row ∈ opcodeMap, row.format.operandCount = row.byte.toNat / 64) ∧
    opcodeMap.map (fun row => (row.mnemonic, row.byte.toNat)) =
      [(.ldi, 0x82), (.prn, 0x47), (.hlt, 0x01), (.add, 0xA0), (.mul, 0xA2), (.mod, 0xA4), (.cmp, 0xA7), (.and, 0xA8)] ++
      [(.or, 0xAA), (.xor, 0xAB), (.not, 0x69), (.shl, 0xAC), (.shr, 0xAD), (.push, 0x45), (.pop, 0x46), (.jmp, 0x54)] ++
      [(.jeq, 0x55), (.jne, 0x56), (.jgt, 0x57), (.jlt, 0x58), (.jle, 0x59), (.jge, 0x5A), (.call, 0x50), (.ret, 0x11)]

/-- spec/30_encoding.md R78: the two high bits of the opcode alone give the length, 1 to 4 bytes, for every byte and whatever the
operand bytes are. -/
def Obligations.LengthComesFromTheTwoHighBits : Prop :=
  ∀ (ir : Byte) (rest : List Byte), 3 ≤ rest.length →
    ∃ i tail, decode (ir :: rest) = .ok (i, tail) ∧ tail = (ir :: rest).drop (1 + ir.toNat / 64) ∧
      1 + ir.toNat / 64 ≤ 4 ∧ (encode i).length = 1 + ir.toNat / 64

/-- spec/30_encoding.md R73: every register operand is its byte modulo 8, LDI's immediate is the whole byte, and every jump and
CALL takes its target from a register. -/
def Obligations.RegisterOperandsAreTakenModuloEight : Prop :=
  ∀ (a b : Byte) (ra rb : Reg), ra.val = a.toNat % 8 → rb.val = b.toNat % 8 →
    decodeInstr (opcodeOf .ldi) [a, b] = .ldi ra b ∧ decodeInstr (opcodeOf .prn) [a] = .prn ra ∧
    decodeInstr (opcodeOf .hlt) [] = .hlt ∧ decodeInstr (opcodeOf .add) [a, b] = .add ra rb ∧
    decodeInstr (opcodeOf .mul) [a, b] = .mul ra rb ∧ decodeInstr (opcodeOf .mod) [a, b] = .mod ra rb ∧
    decodeInstr (opcodeOf .cmp) [a, b] = .cmp ra rb ∧ decodeInstr (opcodeOf .and) [a, b] = .and ra rb ∧
    decodeInstr (opcodeOf .or) [a, b] = .or ra rb ∧ decodeInstr (opcodeOf .xor) [a, b] = .xor ra rb ∧
    decodeInstr (opcodeOf .not) [a] = .not ra ∧ decodeInstr (opcodeOf .shl) [a, b] = .shl ra rb ∧
    decodeInstr (opcodeOf .shr) [a, b] = .shr ra rb ∧ decodeInstr (opcodeOf .push) [a] = .push ra ∧
    decodeInstr (opcodeOf .pop) [a] = .pop ra ∧ decodeInstr (opcodeOf .jmp) [a] = .jmp ra ∧
    decodeInstr (opcodeOf .jeq) [a] = .jeq ra ∧ decodeInstr (opcodeOf .jne) [a] = .jne ra ∧
    decodeInstr (opcodeOf .jgt) [a] = .jgt ra ∧ decodeInstr (opcodeOf .jlt) [a] = .jlt ra ∧
    decodeInstr (opcodeOf .jle) [a] = .jle ra ∧ decodeInstr (opcodeOf .jge) [a] = .jge ra ∧
    decodeInstr (opcodeOf .call) [a] = .call ra ∧ decodeInstr (opcodeOf .ret) [] = .ret

/-- Words written out from spec/30_encoding.md R74's binary column (bytes by decision D1, log 4) decode to the instructions they
stand for; register operand bits 7..3 are ignored. -/
def Obligations.SampleWordsDecodeAsTheSpecWritesThem : Prop :=
  decode [0b10000010#8, 0b00000000#8, 0b00001000#8] = .ok (.ldi 0 8#8, []) ∧
  decode [0b01000111#8, 0b00000100#8] = .ok (.prn 4, []) ∧
  decode [0b10100000#8, 0b11111000#8, 0b00001111#8] = .ok (.add 0 7, []) ∧
  decode [0b01101001#8, 0b00000101#8] = .ok (.not 5, []) ∧
  decode [0b01000101#8, 0b00000011#8] = .ok (.push 3, []) ∧
  decode [0b01011010#8, 0b00000010#8] = .ok (.jge 2, []) ∧
  decode [0b00010001#8, 0b00000000#8] = .ok (.ret, [0#8]) ∧
  decode [0b11000000#8, 1#8, 2#8, 3#8] = .ok (.unrecognised 0xC0#8, [])

/-- spec/30_encoding.md R70 to R76: encoding a well-formed instruction and decoding it gives it back, with every operand at every
value, whatever bytes follow. -/
def Obligations.DecodeInvertsEncode : Prop :=
  ∀ (i : Instr) (rest : List Byte), i.wf = true → decode (encode i ++ rest) = .ok (i, rest)

/-- The other direction (spec/30_encoding.md R75, R78): what the decoder reads is a well-formed instruction that carries the
opcode byte read, and it consumes as many bytes as that instruction's encoding has. -/
def Obligations.DecodedInstructionsCarryTheirOpcode : Prop :=
  ∀ (bs : List Byte) (i : Instr) (rest : List Byte), decode bs = .ok (i, rest) →
    i.wf = true ∧ bs.head? = some i.opcode ∧ rest = bs.drop (encode i).length ∧ (encode i).length ≤ bs.length

/-- spec/40_engine.md R91 ("A byte not fetched ... is not defined, and no instruction rule reads it"): the decoded instruction
depends only on the operand bytes that the opcode's two high bits call for. -/
def Obligations.DecodingReadsOnlyTheFetchedOperands : Prop :=
  ∀ (ir : Byte) (ops more more' : List Byte), ops.length = ir.toNat / 64 →
    decodeInstr ir (ops ++ more) = decodeInstr ir (ops ++ more')

/-- spec/40_engine.md R90: a step of a RUNNING machine is the handler of the instruction that the bytes at pc decode to, and
nothing is added around it (the advance of R95 is the end of every handler). -/
def Obligations.StepRunsTheDecodedInstruction : Prop :=
  ∀ (s : State) (i : Instr) (rest : List Byte), s.status = .running → decode (s.bytesAt s.pc 4) = .ok (i, rest) →
    step s = exec i s

/-- An instruction placed by `withFetchWord` is the one the very next step runs (log 2). -/
def Obligations.PlacedWordIsTheNextInstruction : Prop :=
  ∀ (s : State) (nbits w : Nat) (i : Instr), s.mem.wf = true → decodeTableWord nbits w = some i →
    step (s.withFetchWord nbits w) = exec i (s.withFetchWord nbits w)

/-! ## Load, print, halt -/

/-- spec/41_load_print_halt.md R110: `x[ra] <- imm8`, next pc = pc + 3, nothing else (sp too when ra is 7). -/
def Obligations.LdiLoadsTheImmediate : Prop :=
  ∀ (ra : Reg) (imm8 : Byte) (s : State), ∃ t, exec (.ldi ra imm8) s = .next t ∧
    t.reg ra = imm8 ∧ t.pc = s.pc + 3 ∧ KeepsBut [.reg ra] s t

/-- spec/41_load_print_halt.md R111: the event Print(x[ra]) is appended, next pc = pc + 2, nothing else. -/
def Obligations.PrnAppendsThePrintEvent : Prop :=
  ∀ (ra : Reg) (s : State), ∃ t, exec (.prn ra) s = .next t ∧
    t.out = s.out ++ [.print (s.reg ra)] ∧ t.pc = s.pc + 2 ∧ KeepsBut [.out] s t

/-- spec/41_load_print_halt.md R112: status HALTED, halt reason HLT, nothing else; that pc is the address + 1 is the spec's
decision D9 (log 9). -/
def Obligations.HltHalts : Prop :=
  ∀ s : State, ∃ t, exec .hlt s = .next t ∧
    t.status = .halted ∧ t.haltReason = .hlt ∧ t.pc = s.pc + 1 ∧ KeepsBut [.status, .haltReason] s t

/-- spec/41_load_print_halt.md R111 and decision D13 (log 11): a printed byte is rendered as its decimal digits and a line break. -/
def Obligations.PrintedByteRendersInDecimal : Prop :=
  ∀ v : Byte, renderEvent (.print v) = Nat.toDigits 10 v.toNat ++ ['\n']

/-! ## ALU -/

/-- spec/42_alu.md R121, R122: sum and product modulo 256 in regA, next pc = pc + 3, nothing else; both operands are the values
before the instruction, ra = rb included (spec/40_engine.md R94). -/
def Obligations.AddAndMulAreModulo256 : Prop :=
  ∀ (ra rb : Reg) (s : State),
    (∃ t, exec (.add ra rb) s = .next t ∧ (t.reg ra).toNat = ((s.reg ra).toNat + (s.reg rb).toNat) % 256 ∧
      t.pc = s.pc + 3 ∧ KeepsBut [.reg ra] s t) ∧
    ∃ t, exec (.mul ra rb) s = .next t ∧ (t.reg ra).toNat = ((s.reg ra).toNat * (s.reg rb).toNat) % 256 ∧
      t.pc = s.pc + 3 ∧ KeepsBut [.reg ra] s t

/-- spec/42_alu.md R123 with regB != 0: the unsigned remainder in regA, next pc = pc + 3, nothing else. -/
def Obligations.ModByNonzeroIsTheUnsignedRemainder : Prop :=
  ∀ (ra rb : Reg) (s : State), s.reg rb ≠ 0x00#8 →
    ∃ t, exec (.mod ra rb) s = .next t ∧ (t.reg ra).toNat = (s.reg ra).toNat % (s.reg rb).toNat ∧
      t.pc = s.pc + 3 ∧ KeepsBut [.reg ra] s t

/-- spec/42_alu.md R123 with regB = 0: DiagModZero is emitted and the machine halts with MOD_ZERO. That regA is not written and pc
is the address + 3 is the spec's decision D8 (log 8). -/
def Obligations.ModByZeroHaltsWithTheDiagnostic : Prop :=
  ∀ (ra rb : Reg) (s : State), s.reg rb = 0x00#8 →
    ∃ t, exec (.mod ra rb) s = .next t ∧ t.out = s.out ++ [.diagModZero] ∧ t.status = .halted ∧
      t.haltReason = .modZero ∧ t.pc = s.pc + 3 ∧ KeepsBut [.out, .status, .haltReason] s t

/-- spec/42_alu.md R124: FL becomes exactly 1, 2 or 4 by the unsigned comparison of regA with regB (the direction is the spec's
decision D4, log 6); no register is written. -/
def Obligations.CmpOverwritesFlWithOneCode : Prop :=
  ∀ (ra rb : Reg) (s : State), ∃ t, exec (.cmp ra rb) s = .next t ∧
    ((s.reg ra).toNat = (s.reg rb).toNat → t.fl = 1#8) ∧ ((s.reg rb).toNat < (s.reg ra).toNat → t.fl = 2#8) ∧
    ((s.reg ra).toNat < (s.reg rb).toNat → t.fl = 4#8) ∧ t.pc = s.pc + 3 ∧ KeepsBut [.fl] s t

/-- spec/42_alu.md R125 to R127: AND, OR and XOR bit by bit into regA, next pc = pc + 3, nothing else. -/
def Obligations.AndOrXorAreBitwise : Prop :=
  ∀ (ra rb : Reg) (s : State),
    (∃ t, exec (.and ra rb) s = .next t ∧
      (∀ k < 8, (t.reg ra).getLsbD k = ((s.reg ra).getLsbD k && (s.reg rb).getLsbD k)) ∧
      t.pc = s.pc + 3 ∧ KeepsBut [.reg ra] s t) ∧
    (∃ t, exec (.or ra rb) s = .next t ∧
      (∀ k < 8, (t.reg ra).getLsbD k = ((s.reg ra).getLsbD k || (s.reg rb).getLsbD k)) ∧
      t.pc = s.pc + 3 ∧ KeepsBut [.reg ra] s t) ∧
    ∃ t, exec (.xor ra rb) s = .next t ∧
      (∀ k < 8, (t.reg ra).getLsbD k = Bool.xor ((s.reg ra).getLsbD k) ((s.reg rb).getLsbD k)) ∧
      t.pc = s.pc + 3 ∧ KeepsBut [.reg ra] s t

/-- spec/42_alu.md R128: `x[ra] <- 255 - A`, next pc = pc + 2 (one operand byte, decision D26), nothing else. -/
def Obligations.NotIsTheComplement : Prop :=
  ∀ (ra : Reg) (s : State), ∃ t, exec (.not ra) s = .next t ∧ (t.reg ra).toNat = 255 - (s.reg ra).toNat ∧
    t.pc = s.pc + 2 ∧ KeepsBut [.reg ra] s t

/-- spec/42_alu.md R129, R130 for an amount below 8: `u8(A * 2^B)` and `floor(A / 2^B)`, next pc = pc + 3, nothing else. -/
def Obligations.ShiftsBelowEightScaleByPowersOfTwo : Prop :=
  ∀ (ra rb : Reg) (s : State), (s.reg rb).toNat < 8 →
    (∃ t, exec (.shl ra rb) s = .next t ∧ (t.reg ra).toNat = (s.reg ra).toNat * 2 ^ (s.reg rb).toNat % 256 ∧
      t.pc = s.pc + 3 ∧ KeepsBut [.reg ra] s t) ∧
    ∃ t, exec (.shr ra rb) s = .next t ∧ (t.reg ra).toNat = (s.reg ra).toNat / 2 ^ (s.reg rb).toNat ∧
      t.pc = s.pc + 3 ∧ KeepsBut [.reg ra] s t

/-- spec/42_alu.md R129, R130 for an amount of 8 or more: 0, which is the spec's decision D5 for a case the source calls
implementation-defined (log 7). -/
def Obligations.ShiftsByEightOrMoreGiveZero : Prop :=
  ∀ (ra rb : Reg) (s : State), 8 ≤ (s.reg rb).toNat →
    (∃ t, exec (.shl ra rb) s = .next t ∧ t.reg ra = 0x00#8 ∧ t.pc = s.pc + 3 ∧ KeepsBut [.reg ra] s t) ∧
    ∃ t, exec (.shr ra rb) s = .next t ∧ t.reg ra = 0x00#8 ∧ t.pc = s.pc + 3 ∧ KeepsBut [.reg ra] s t

/-- spec/42_alu.md R131: only CMP, of all instructions, writes FL; the other ALU instructions write regA and no other register,
MOD only when regB != 0; none writes sp or memory, and pc only moves past the instruction. -/
def Obligations.AluInstructionsWriteOnlyTheirDestination : Prop :=
  (∀ (i : Instr) (s t : State), exec i s = .next t → (∀ ra rb, i ≠ .cmp ra rb) → t.fl = s.fl) ∧
    (∀ op ∈ [Instr.add, .mul, .and, .or, .xor, .shl, .shr], ∀ (ra rb : Reg) (s t : State),
      exec (op ra rb) s = .next t → KeepsBut [.reg ra] s t ∧ t.pc = s.pc + 3) ∧
    (∀ (ra : Reg) (s t : State), exec (.not ra) s = .next t → KeepsBut [.reg ra] s t ∧ t.pc = s.pc + 2) ∧
    (∀ (ra rb : Reg) (s t : State), exec (.mod ra rb) s = .next t →
      KeepsBut [.reg ra, .out, .status, .haltReason] s t ∧ t.pc = s.pc + 3 ∧
        (s.reg rb = 0x00#8 → t.reg ra = s.reg ra)) ∧
    ∀ (ra rb : Reg) (s t : State), exec (.cmp ra rb) s = .next t → KeepsBut [.fl] s t ∧ t.pc = s.pc + 3

/-! ## Stack -/

/-- spec/43_stack.md R150, R151: sp is decremented modulo 256 with no check, regA's byte is stored at the new sp, next pc = pc + 2,
nothing else. -/
def Obligations.PushStoresAtTheDecrementedSp : Prop :=
  ∀ (ra : Reg) (s : State), s.mem.wf = true →
    ∃ t, exec (.push ra) s = .next t ∧ t.sp = pushAddr s ∧ (pushAddr s).toNat = (s.sp.toNat + 255) % 256 ∧
      t.memRead (pushAddr s) = s.reg ra ∧ t.pc = s.pc + 2 ∧ KeepsBut [.sp, .mem (pushAddr s)] s t

/-- spec/43_stack.md R150, R152, R153: the byte at sp goes to regA, sp is incremented modulo 256 with no check, memory keeps the
byte, next pc = pc + 2, nothing else (POP R7 too moves sp by the increment alone). -/
def Obligations.PopLoadsFromSpAndIncrementsIt : Prop :=
  ∀ (ra : Reg) (s : State), ∃ t, exec (.pop ra) s = .next t ∧ t.reg ra = s.memRead s.sp ∧
    t.sp.toNat = (s.sp.toNat + 1) % 256 ∧ t.pc = s.pc + 2 ∧ KeepsBut [.reg ra, .sp] s t

/-- spec/43_stack.md R154, first law: PUSH Ra then POP Rb gives Rb the value Ra had, and sp ends where it started. -/
def Obligations.PushThenPopMovesTheValue : Prop :=
  ∀ (ra rb : Reg) (s : State), s.mem.wf = true →
    ∃ t, execAll [.push ra, .pop rb] s = .next t ∧ t.reg rb = s.reg ra ∧ t.sp = s.sp ∧ t.pc = s.pc + 4 ∧
      KeepsBut [.reg rb, .mem (pushAddr s)] s t

/-- spec/43_stack.md R154, second law: n pushes followed by n pops leave sp unchanged, for any n. -/
def Obligations.EqualPushesAndPopsRestoreSp : Prop :=
  ∀ (pushed popped : List Reg) (s : State), pushed.length = popped.length →
    ∃ t, execAll (pushed.map .push ++ popped.map .pop) s = .next t ∧ t.sp = s.sp

/-- spec/43_stack.md R154, third law: at most 256 pushes are popped in reverse order, sp ending where it started. -/
def Obligations.PopsReturnThePushesInReverse : Prop :=
  ∀ (values : List Byte) (s : State), s.mem.wf = true → values.length ≤ 256 →
    popAll (s.pushAll values) values.length = values.reverse ∧ (s.pushAll values).sp + u8 values.length = s.sp

/-- spec/20_memory.md R61, spec/70_reset_and_hazards.md R232 (decision D23): a byte that PUSH wrote is what a later fetch at that
address reads, with nothing in between. -/
def Obligations.FetchSeesThePushedByte : Prop :=
  ∀ (ra : Reg) (s t : State), s.mem.wf = true → exec (.push ra) s = .next t →
    (fetch (t.setPc (pushAddr s))).ir = s.reg ra

/-! ## Control transfer -/

/-- spec/44_control_transfer.md R161 (and R160, decision D2): next pc is the register's full byte, nothing else changes. -/
def Obligations.JmpGoesToTheRegisterValue : Prop :=
  ∀ (ra : Reg) (s : State), ∃ t, exec (.jmp ra) s = .next t ∧ t.pc = s.reg ra ∧ KeepsBut [] s t

/-- spec/44_control_transfer.md R162, with the tests of R163 to R168 on FL's exact value: taken to x[ra], else pc + 2; nothing
else changes; when not taken the value of x[ra] has no effect. -/
def Obligations.ConditionalJumpsTestTheExactFlValue : Prop :=
  ∀ jump ∈ ([(.jeq, fun fl => fl = 1), (.jne, fun fl => fl % 2 = 0), (.jge, fun fl => fl = 1 ∨ fl = 4),
      (.jgt, fun fl => fl = 4), (.jle, fun fl => fl = 2 ∨ fl = 0), (.jlt, fun fl => fl = 2)] :
      List ((Reg → Instr) × (Nat → Prop))),
    ∀ (ra : Reg) (s : State), ∃ t, exec (jump.1 ra) s = .next t ∧ KeepsBut [] s t ∧
      (jump.2 s.fl.toNat → t.pc = s.reg ra) ∧
      (¬ jump.2 s.fl.toNat → t.pc = s.pc + 2 ∧ ∀ v, exec (jump.1 ra) (s.setReg ra v) = .next (t.setReg ra v))

/-- spec/44_control_transfer.md R167's corner case: over the values FL can hold, JLE is taken exactly when JGE is not. -/
def Obligations.JleIsTakenExactlyWhenJgeIsNot : Prop :=
  ∀ (ra : Reg) (s : State), legalFl s.fl = true →
    ∃ t u, exec (.jle ra) s = .next t ∧ exec (.jge ra) s = .next u ∧ (t.pc = s.reg ra ↔ u.pc = s.pc + 2) ∧
      (u.pc = s.reg ra ↔ t.pc = s.pc + 2)

/-- spec/70_reset_and_hazards.md R233: FL is 0 at reset and stays 0 until the first CMP, and while it is 0 JNE and JLE are taken
and JEQ, JGE, JGT and JLT are not. -/
def Obligations.JumpsBeforeAnyCompare : Prop :=
  State.reset.fl = 0#8 ∧
    (∀ (i : Instr) (s t : State), s.fl = 0#8 → (∀ ra rb, i ≠ .cmp ra rb) → exec i s = .next t → t.fl = 0#8) ∧
    (∀ s t : State, s.fl = 0#8 → s.status = .idle → step s = .next t → t.fl = 0#8) ∧
    ∀ (ra : Reg) (s : State), s.fl = 0#8 →
      (∀ jump ∈ [Instr.jne, .jle], ∃ t, exec (jump ra) s = .next t ∧ t.pc = s.reg ra) ∧
      ∀ jump ∈ [Instr.jeq, .jge, .jgt, .jlt], ∃ t, exec (jump ra) s = .next t ∧ t.pc = s.pc + 2

/-- spec/44_control_transfer.md R169, spec/70_reset_and_hazards.md R235: right after CMP Ra,Rb each conditional jump is taken on
the relation of the table's row, not the one its name suggests (conditions literal by D3, CMP's direction D4, log 6). -/
def Obligations.JumpsAfterCompareFollowTheTable : Prop :=
  ∀ jump ∈ ([(.jeq, fun a b => a = b), (.jne, fun a b => a ≠ b), (.jge, fun a b => a ≤ b), (.jgt, fun a b => a < b),
      (.jle, fun a b => b < a), (.jlt, fun a b => b < a)] : List ((Reg → Instr) × (Nat → Nat → Prop))),
    ∀ (ra rb rt : Reg) (s : State), ∃ t, execAll [.cmp ra rb, jump.1 rt] s = .next t ∧
      (jump.2 (s.reg ra).toNat (s.reg rb).toNat → t.pc = s.reg rt) ∧
      (¬ jump.2 (s.reg ra).toNat (s.reg rb).toNat → t.pc = s.pc + 5)

/-- spec/44_control_transfer.md R171, R172 (decision D2, log 5): the byte pc + 1 is stored at the decremented sp, next pc is the
register's value, nothing else changes. -/
def Obligations.CallPushesPcPlusOneAndJumps : Prop :=
  ∀ (ra : Reg) (s : State), s.mem.wf = true →
    ∃ t, exec (.call ra) s = .next t ∧ t.sp = pushAddr s ∧ (pushAddr s).toNat = (s.sp.toNat + 255) % 256 ∧
      t.memRead (pushAddr s) = s.pc + 1 ∧ t.pc = s.reg ra ∧ KeepsBut [.sp, .mem (pushAddr s)] s t

/-- spec/44_control_transfer.md R173 (decision D2, log 5): next pc is the popped byte + 1, sp is incremented, nothing else
changes. -/
def Obligations.RetContinuesAfterThePoppedByte : Prop :=
  ∀ s : State, ∃ t, exec .ret s = .next t ∧ t.pc = s.memRead s.sp + 1 ∧ t.sp.toNat = (s.sp.toNat + 1) % 256 ∧
    KeepsBut [.sp] s t

/-- spec/44_control_transfer.md R174: if a subroutine leaves sp and the return slot as CALL left them, RET resumes at the CALL's
address + 2 with sp restored. -/
def Obligations.ReturnResumesAfterTheCall : Prop :=
  ∀ (ra : Reg) (s t u : State), s.mem.wf = true → exec (.call ra) s = .next t → u.sp = t.sp →
    u.memRead u.sp = t.memRead t.sp → ∃ v, exec .ret u = .next v ∧ v.pc = s.pc + 2 ∧ v.sp = s.sp

/-! ## Unrecognised opcodes -/

/-- spec/40_engine.md R97, spec/30_encoding.md R76 (decision D6, log 10): an opcode byte that no row matches only moves pc past its
1 + (IR >> 6) bytes. -/
def Obligations.UnrecognisedOpcodeIsANoOp : Prop :=
  (∀ (ir : Byte) (s : State), ∃ t, exec (.unrecognised ir) s = .next t ∧ t.pc = s.pc + u8 (ir.toNat / 64 + 1) ∧
      KeepsBut [] s t) ∧
    ∀ s : State, s.status = .running → (∀ row ∈ opcodeMap, row.byte ≠ s.memRead s.pc) →
      step s = .next (s.setPc (s.pc + u8 ((s.memRead s.pc).toNat / 64 + 1)))

/-- spec/70_reset_and_hazards.md R234: over memory that reads 0 everywhere a RUNNING machine executes one-byte no-ops, pc wrapping,
for any number of steps. -/
def Obligations.ZeroMemoryRunsNoOpsForever : Prop :=
  ∀ (k : Nat) (s : State), s.status = .running → (∀ a : Byte, s.memRead a = 0x00#8) →
    Host.Core.run Sys2Proof.core k s = .next (s.setPc (s.pc + u8 k))

/-! ## The whole machine -/

/-- spec/60_exceptions.md R200: no instruction raises anything (each has a next state on every state), and only two events end
execution, HLT and MOD's zero guard. -/
def Obligations.NoInstructionStopsAndOnlyHltAndModZeroHalt : Prop :=
  (∀ (i : Instr) (s : State), ∃ t, exec i s = .next t) ∧
    ∀ (i : Instr) (s t : State), s.status = .running → exec i s = .next t →
      (t.status = .halted ↔ i = .hlt ∨ ∃ ra rb, i = .mod ra rb ∧ s.reg rb = 0x00#8) ∧
      (t.status ≠ .halted → t.status = .running)

/-- A step never faults, and is refused exactly when the machine is HALTED (spec/60_exceptions.md R200, R205; that "no step" is a
refusal is log 3, DEDUCED). That the step of an IDLE machine is not refused is the model's choice (log 2, DESIGN CHOICE): the
engine of spec/40_engine.md R96 has no step while IDLE, and the model's step is then the host's run start. -/
def Obligations.OnlyAHaltedMachineHasNoStep : Prop :=
  ∀ s : State, (∀ f, step s ≠ .fault f) ∧ ∀ r, step s = .refused r ↔ s.status = .halted ∧ r = .halted

/-- spec/10_state.md R28, R29 (IDLE and the halt reason are the spec's decision D16): status moves only IDLE to RUNNING and RUNNING
to HALTED, and the halt reason is written exactly by the move to HALTED. -/
def Obligations.StatusMovesOnlyForward : Prop :=
  ∀ s t : State, step s = .next t →
    (s.status = .idle ∧ t.status = .running ∧ t.haltReason = s.haltReason) ∨
    (s.status = .running ∧ t.status = .running ∧ t.haltReason = s.haltReason) ∨
    (s.status = .running ∧ t.status = .halted ∧ t.haltReason ≠ .none)

/-- spec/10_state.md R30: the output is empty at construction and only grows, by Print(v) of the register PRN names and by
DiagModZero of the zero guard, and by nothing else. -/
def Obligations.OutputGrowsOnlyByPrnAndTheModGuard : Prop :=
  State.reset.out = [] ∧
    (∀ s t : State, s.status = .idle → step s = .next t → t.out = s.out) ∧
    ∀ (i : Instr) (s t : State), exec i s = .next t →
      (∀ ra, i = .prn ra → t.out = s.out ++ [.print (s.reg ra)]) ∧
      (∀ ra rb, i = .mod ra rb → s.reg rb = 0x00#8 → t.out = s.out ++ [.diagModZero]) ∧
      ((∀ ra, i ≠ .prn ra) → (∀ ra rb, i = .mod ra rb → s.reg rb ≠ 0x00#8) → t.out = s.out)

/-- spec/20_memory.md R52: of all steps only PUSH and CALL change memory, and only the byte at the decremented sp. -/
def Obligations.OnlyPushAndCallChangeMemory : Prop :=
  ∀ (s t : State) (a : Byte), s.mem.wf = true → step s = .next t → t.memRead a ≠ s.memRead a →
    s.status = .running ∧ a = pushAddr s ∧
      ∃ ra, decodeInstr (fetch s).ir (fetch s).ops = .push ra ∨ decodeInstr (fetch s).ir (fetch s).ops = .call ra

/-- spec/40_engine.md R98 ("one register write per step at most") and spec/10_state.md R23: a step changes at most one register,
and it is the regA of an instruction that R23 lists as writing it. -/
def Obligations.AStepWritesAtMostOneRegister : Prop :=
  ∀ (s t : State) (r : Reg), step s = .next t → t.reg r ≠ s.reg r →
    s.status = .running ∧ (∀ r', r' ≠ r → t.reg r' = s.reg r') ∧
      ((∃ imm8, decodeInstr (fetch s).ir (fetch s).ops = .ldi r imm8) ∨
        decodeInstr (fetch s).ir (fetch s).ops = .pop r ∨ decodeInstr (fetch s).ir (fetch s).ops = .not r ∨
        ∃ rb, ∃ op ∈ [Instr.add, .mul, .mod, .and, .or, .xor, .shl, .shr],
          decodeInstr (fetch s).ir (fetch s).ops = op r rb)

/-- spec/10_state.md R22 (decision D10): once the run has started, what R7 holds never moves sp; and no stack operation writes R7,
but a POP that names it. -/
def Obligations.R7AndSpAreIndependentWhileRunning : Prop :=
  (∀ (i : Instr) (s t u : State) (v : Byte), exec i s = .next t → exec i (s.setReg 7 v) = .next u → u.sp = t.sp) ∧
    (∀ (ra : Reg) (s t : State), exec (.push ra) s = .next t ∨ exec (.call ra) s = .next t ∨ exec .ret s = .next t →
      t.reg 7 = s.reg 7) ∧
    ∀ (ra : Reg) (s t : State), ra ≠ 7 → exec (.pop ra) s = .next t → t.reg 7 = s.reg 7

/-- spec/40_engine.md R95's table (decision D2): an instruction that is no control transfer moves pc past exactly the bytes of its
encoding. -/
def Obligations.NonTransfersAdvanceByTheirEncodedLength : Prop :=
  ∀ (i : Instr) (s t : State), exec i s = .next t → i ≠ .ret →
    (∀ ra, ∀ op ∈ [Instr.jmp, .jeq, .jne, .jgt, .jlt, .jle, .jge, .call], i ≠ op ra) →
    t.pc = s.pc + u8 (encode i).length

/-- spec/60_exceptions.md R213 (the core receives nothing while RUNNING) and spec/10_state.md R30: no step reads the output, so
events already emitted change nothing but themselves. -/
def Obligations.EarlierOutputNeverInfluencesAStep : Prop :=
  ∀ (s t : State) (earlier : List Event), step s = .next t →
    step { s with out := earlier ++ s.out } = .next { t with out := earlier ++ t.out }

/-- Every step keeps the invariant: memory canonical, FL one of 0, 1, 2, 4 (spec/10_state.md R25), a halt reason exactly when
HALTED (R28, R29), and the diagnostic in the output exactly when the halt reason is MOD_ZERO (R30, spec/42_alu.md R123). -/
def Obligations.StepKeepsTheInvariant : Prop :=
  ∀ s t : State, s.Inv → step s = .next t → t.Inv
end

