-- ==== Sys2Proof/Laws/State.lean ====
section
/-! SUPPORT. One lemma per field of State per update, each true by definition, so that no later proof unfolds an update. -/

namespace Sys2Proof.Machine

variable (s : State)

@[simp] theorem State.memWrite_mem (a v : Byte) : (s.memWrite a v).mem = s.mem.write a.toNat v := rfl
@[simp] theorem State.memWrite_regs (a v : Byte) : (s.memWrite a v).regs = s.regs := rfl
@[simp] theorem State.memWrite_pc (a v : Byte) : (s.memWrite a v).pc = s.pc := rfl
@[simp] theorem State.memWrite_fl (a v : Byte) : (s.memWrite a v).fl = s.fl := rfl
@[simp] theorem State.memWrite_sp (a v : Byte) : (s.memWrite a v).sp = s.sp := rfl
@[simp] theorem State.memWrite_status (a v : Byte) : (s.memWrite a v).status = s.status := rfl
@[simp] theorem State.memWrite_haltReason (a v : Byte) : (s.memWrite a v).haltReason = s.haltReason := rfl
@[simp] theorem State.memWrite_out (a v : Byte) : (s.memWrite a v).out = s.out := rfl

@[simp] theorem State.setReg_mem (r : Reg) (v : Byte) : (s.setReg r v).mem = s.mem := rfl
@[simp] theorem State.setReg_regs (r : Reg) (v : Byte) : (s.setReg r v).regs = s.regs.set r v := rfl
@[simp] theorem State.setReg_pc (r : Reg) (v : Byte) : (s.setReg r v).pc = s.pc := rfl
@[simp] theorem State.setReg_fl (r : Reg) (v : Byte) : (s.setReg r v).fl = s.fl := rfl
@[simp] theorem State.setReg_sp (r : Reg) (v : Byte) : (s.setReg r v).sp = s.sp := rfl
@[simp] theorem State.setReg_status (r : Reg) (v : Byte) : (s.setReg r v).status = s.status := rfl
@[simp] theorem State.setReg_haltReason (r : Reg) (v : Byte) : (s.setReg r v).haltReason = s.haltReason := rfl
@[simp] theorem State.setReg_out (r : Reg) (v : Byte) : (s.setReg r v).out = s.out := rfl

@[simp] theorem State.setPc_mem (t : Byte) : (s.setPc t).mem = s.mem := rfl
@[simp] theorem State.setPc_regs (t : Byte) : (s.setPc t).regs = s.regs := rfl
@[simp] theorem State.setPc_pc (t : Byte) : (s.setPc t).pc = t := rfl
@[simp] theorem State.setPc_fl (t : Byte) : (s.setPc t).fl = s.fl := rfl
@[simp] theorem State.setPc_sp (t : Byte) : (s.setPc t).sp = s.sp := rfl
@[simp] theorem State.setPc_status (t : Byte) : (s.setPc t).status = s.status := rfl
@[simp] theorem State.setPc_haltReason (t : Byte) : (s.setPc t).haltReason = s.haltReason := rfl
@[simp] theorem State.setPc_out (t : Byte) : (s.setPc t).out = s.out := rfl

@[simp] theorem State.setSp_mem (t : Byte) : (s.setSp t).mem = s.mem := rfl
@[simp] theorem State.setSp_regs (t : Byte) : (s.setSp t).regs = s.regs := rfl
@[simp] theorem State.setSp_pc (t : Byte) : (s.setSp t).pc = s.pc := rfl
@[simp] theorem State.setSp_fl (t : Byte) : (s.setSp t).fl = s.fl := rfl
@[simp] theorem State.setSp_sp (t : Byte) : (s.setSp t).sp = t := rfl
@[simp] theorem State.setSp_status (t : Byte) : (s.setSp t).status = s.status := rfl
@[simp] theorem State.setSp_haltReason (t : Byte) : (s.setSp t).haltReason = s.haltReason := rfl
@[simp] theorem State.setSp_out (t : Byte) : (s.setSp t).out = s.out := rfl

@[simp] theorem State.setFl_mem (t : Byte) : (s.setFl t).mem = s.mem := rfl
@[simp] theorem State.setFl_regs (t : Byte) : (s.setFl t).regs = s.regs := rfl
@[simp] theorem State.setFl_pc (t : Byte) : (s.setFl t).pc = s.pc := rfl
@[simp] theorem State.setFl_fl (t : Byte) : (s.setFl t).fl = t := rfl
@[simp] theorem State.setFl_sp (t : Byte) : (s.setFl t).sp = s.sp := rfl
@[simp] theorem State.setFl_status (t : Byte) : (s.setFl t).status = s.status := rfl
@[simp] theorem State.setFl_haltReason (t : Byte) : (s.setFl t).haltReason = s.haltReason := rfl
@[simp] theorem State.setFl_out (t : Byte) : (s.setFl t).out = s.out := rfl

@[simp] theorem State.emit_mem (e : Event) : (s.emit e).mem = s.mem := rfl
@[simp] theorem State.emit_regs (e : Event) : (s.emit e).regs = s.regs := rfl
@[simp] theorem State.emit_pc (e : Event) : (s.emit e).pc = s.pc := rfl
@[simp] theorem State.emit_fl (e : Event) : (s.emit e).fl = s.fl := rfl
@[simp] theorem State.emit_sp (e : Event) : (s.emit e).sp = s.sp := rfl
@[simp] theorem State.emit_status (e : Event) : (s.emit e).status = s.status := rfl
@[simp] theorem State.emit_haltReason (e : Event) : (s.emit e).haltReason = s.haltReason := rfl
@[simp] theorem State.emit_out (e : Event) : (s.emit e).out = s.out ++ [e] := rfl

@[simp] theorem State.halt_mem (r : HaltReason) : (s.halt r).mem = s.mem := rfl
@[simp] theorem State.halt_regs (r : HaltReason) : (s.halt r).regs = s.regs := rfl
@[simp] theorem State.halt_pc (r : HaltReason) : (s.halt r).pc = s.pc := rfl
@[simp] theorem State.halt_fl (r : HaltReason) : (s.halt r).fl = s.fl := rfl
@[simp] theorem State.halt_sp (r : HaltReason) : (s.halt r).sp = s.sp := rfl
@[simp] theorem State.halt_status (r : HaltReason) : (s.halt r).status = .halted := rfl
@[simp] theorem State.halt_haltReason (r : HaltReason) : (s.halt r).haltReason = r := rfl
@[simp] theorem State.halt_out (r : HaltReason) : (s.halt r).out = s.out := rfl

@[simp] theorem State.push_mem (v : Byte) : (s.push v).mem = s.mem.write (pushAddr s).toNat v := rfl
@[simp] theorem State.push_regs (v : Byte) : (s.push v).regs = s.regs := rfl
@[simp] theorem State.push_pc (v : Byte) : (s.push v).pc = s.pc := rfl
@[simp] theorem State.push_fl (v : Byte) : (s.push v).fl = s.fl := rfl
@[simp] theorem State.push_sp (v : Byte) : (s.push v).sp = pushAddr s := rfl
@[simp] theorem State.push_status (v : Byte) : (s.push v).status = s.status := rfl
@[simp] theorem State.push_haltReason (v : Byte) : (s.push v).haltReason = s.haltReason := rfl
@[simp] theorem State.push_out (v : Byte) : (s.push v).out = s.out := rfl

@[simp] theorem State.popped_mem : (s.popped).mem = s.mem := rfl
@[simp] theorem State.popped_regs : (s.popped).regs = s.regs := rfl
@[simp] theorem State.popped_pc : (s.popped).pc = s.pc := rfl
@[simp] theorem State.popped_fl : (s.popped).fl = s.fl := rfl
@[simp] theorem State.popped_sp : (s.popped).sp = s.sp + 1 := rfl
@[simp] theorem State.popped_status : (s.popped).status = s.status := rfl
@[simp] theorem State.popped_haltReason : (s.popped).haltReason = s.haltReason := rfl
@[simp] theorem State.popped_out : (s.popped).out = s.out := rfl

@[simp] theorem State.advance_mem (n : Nat) : (s.advance n).mem = s.mem := rfl
@[simp] theorem State.advance_regs (n : Nat) : (s.advance n).regs = s.regs := rfl
@[simp] theorem State.advance_pc (n : Nat) : (s.advance n).pc = s.pc + u8 (n + 1) := rfl
@[simp] theorem State.advance_fl (n : Nat) : (s.advance n).fl = s.fl := rfl
@[simp] theorem State.advance_sp (n : Nat) : (s.advance n).sp = s.sp := rfl
@[simp] theorem State.advance_status (n : Nat) : (s.advance n).status = s.status := rfl
@[simp] theorem State.advance_haltReason (n : Nat) : (s.advance n).haltReason = s.haltReason := rfl
@[simp] theorem State.advance_out (n : Nat) : (s.advance n).out = s.out := rfl

@[simp] theorem State.jump_mem (t : Byte) : (s.jump t).mem = s.mem := rfl
@[simp] theorem State.jump_regs (t : Byte) : (s.jump t).regs = s.regs := rfl
@[simp] theorem State.jump_pc (t : Byte) : (s.jump t).pc = t - 2 := rfl
@[simp] theorem State.jump_fl (t : Byte) : (s.jump t).fl = s.fl := rfl
@[simp] theorem State.jump_sp (t : Byte) : (s.jump t).sp = s.sp := rfl
@[simp] theorem State.jump_status (t : Byte) : (s.jump t).status = s.status := rfl
@[simp] theorem State.jump_haltReason (t : Byte) : (s.jump t).haltReason = s.haltReason := rfl
@[simp] theorem State.jump_out (t : Byte) : (s.jump t).out = s.out := rfl

end Sys2Proof.Machine
end

