-- ==== Sys2Proof/Laws/Memory.lean ====
section
/-! SUPPORT. The laws of memory: read after write, and that every memory operation keeps the canonical form. -/

namespace Sys2Proof.Machine

@[simp] theorem Memory.read_nil (a : Nat) : Memory.read [] a = Memory.unlisted := rfl

@[simp] theorem Memory.read_cons (k : Nat) (v : Byte) (m : Memory) (a : Nat) :
    Memory.read ((k, v) :: m) a = if k = a then v else Memory.read m a := rfl

@[simp] theorem Memory.wfFrom_nil (lo : Nat) : Memory.wfFrom lo [] = true := rfl

@[simp] theorem Memory.wfFrom_cons (lo k : Nat) (v : Byte) (m : Memory) :
    Memory.wfFrom lo ((k, v) :: m) = true ↔
      lo ≤ k ∧ k < Config.memSize ∧ v ≠ Memory.unlisted ∧ Memory.wfFrom (k + 1) m = true := by
  simp [Memory.wfFrom, and_assoc]

/-- A canonical memory from `lo` on is canonical from any lower bound. -/
theorem Memory.wfFrom_mono {lo lo' : Nat} {m : Memory} (h : lo' ≤ lo) (hm : Memory.wfFrom lo m = true) :
    Memory.wfFrom lo' m = true := by
  cases m with
  | nil => rfl
  | cons c m => obtain ⟨k, v⟩ := c; simp only [Memory.wfFrom_cons] at *; exact ⟨by omega, hm.2⟩

/-- Below its first possible address a canonical memory reads as unlisted. -/
theorem Memory.read_below {lo a : Nat} {m : Memory} (hm : Memory.wfFrom lo m = true) (h : a < lo) :
    m.read a = Memory.unlisted := by
  induction m generalizing lo with
  | nil => rfl
  | cons c m ih =>
    obtain ⟨k, v⟩ := c
    simp only [Memory.wfFrom_cons] at hm
    rw [Memory.read_cons, if_neg (by omega)]
    exact ih hm.2.2.2 (by omega)

theorem Memory.cell_wf {lo a : Nat} {m : Memory} (v : Byte) (hlo : lo ≤ a) (ha : a < Config.memSize)
    (hm : Memory.wfFrom (a + 1) m = true) : Memory.wfFrom lo (Memory.cell a v m) = true := by
  unfold Memory.cell
  split
  · exact Memory.wfFrom_mono (by omega) hm
  · simp_all

theorem Memory.write_wfFrom {lo a : Nat} {m : Memory} (v : Byte) (hlo : lo ≤ a) (ha : a < Config.memSize)
    (hm : Memory.wfFrom lo m = true) : Memory.wfFrom lo (m.write a v) = true := by
  induction m generalizing lo with
  | nil => exact Memory.cell_wf v hlo ha rfl
  | cons c m ih =>
    obtain ⟨k, w⟩ := c
    simp only [Memory.wfFrom_cons] at hm
    unfold Memory.write
    split
    · exact Memory.cell_wf v hlo ha (by simp only [Memory.wfFrom_cons]; exact ⟨by omega, hm.2⟩)
    · split
      · subst_vars; exact Memory.cell_wf v hlo ha hm.2.2.2
      · simp only [Memory.wfFrom_cons]; exact ⟨hm.1, hm.2.1, hm.2.2.1, ih (by omega) hm.2.2.2⟩

/-- A write keeps the canonical form. -/
theorem Memory.write_wf {m : Memory} (a : Byte) (v : Byte) (hm : m.wf = true) : (m.write a.toNat v).wf = true :=
  Memory.write_wfFrom v (Nat.zero_le _) a.isLt hm

theorem Memory.cell_read {lo a b : Nat} {m : Memory} (v : Byte) (hm : Memory.wfFrom lo m = true) (ha : a < lo) :
    (Memory.cell a v m).read b = if a = b then v else m.read b := by
  unfold Memory.cell
  split
  · split
    · subst_vars; exact Memory.read_below hm ha
    · rfl
  · rfl

/-- A read after a write gives the value written at its address, and what was there before at every other. -/
theorem Memory.read_write {lo : Nat} {m : Memory} (a b : Nat) (v : Byte) (hm : Memory.wfFrom lo m = true) :
    (m.write a v).read b = if a = b then v else m.read b := by
  induction m generalizing lo with
  | nil => exact Memory.cell_read (lo := a + 1) v rfl (by omega)
  | cons c m ih =>
    obtain ⟨k, w⟩ := c
    simp only [Memory.wfFrom_cons] at hm
    unfold Memory.write
    split
    · rename_i h
      exact Memory.cell_read (lo := k) v (by simp only [Memory.wfFrom_cons]; exact ⟨le_refl k, hm.2⟩) h
    · split
      · rename_i _ h
        subst h
        rw [Memory.cell_read v hm.2.2.2 (by omega), Memory.read_cons]
        split <;> rfl
      · rename_i _ h
        rw [Memory.read_cons, ih hm.2.2.2, Memory.read_cons]
        split
        · subst_vars; rw [if_neg h]
        · rfl

/-- The law of one byte of the state's memory. -/
theorem State.memRead_memWrite {s : State} (hs : s.mem.wf = true) (a b v : Byte) :
    (s.memWrite a v).memRead b = if a = b then v else s.memRead b := by
  simp only [State.memRead, State.memWrite_mem, Memory.read_write (lo := 0) _ _ _ hs, BitVec.toNat_inj]

/-- Storing bytes keeps the canonical form. -/
theorem State.storeBytes_wf {s : State} (bs : List Byte) (a : Byte) (hs : s.mem.wf = true) :
    (s.storeBytes a bs).mem.wf = true := by
  induction bs generalizing s a with
  | nil => exact hs
  | cons v bs ih => exact ih (a + 1) (Memory.write_wf a v hs)

theorem State.reset_mem_wf : State.reset.mem.wf = true := rfl

end Sys2Proof.Machine
end

