-- ==== Sys2Proof/Laws/Ops.lean ====
section
/-! SUPPORT. One lemma per shared operation that says everything it can do; the provers cite these and need not unfold the
operations. -/

namespace Sys2Proof.Machine

/-- A register after a register write. -/
@[simp] theorem State.reg_setReg (s : State) (r r' : Reg) (v : Byte) :
    (s.setReg r v).reg r' = if r = r' then v else s.reg r' := by
  simp [State.reg, State.setReg, Vector.getElem_set, Fin.val_inj]

/-- Registers depend on the register file alone. -/
theorem State.reg_congr {s t : State} (h : t.regs = s.regs) (r : Reg) : t.reg r = s.reg r := by
  simp [State.reg, h]

@[simp] theorem State.reg_memWrite (s : State) (a v : Byte) (r : Reg) : (s.memWrite a v).reg r = s.reg r := rfl
@[simp] theorem State.reg_setPc (s : State) (t : Byte) (r : Reg) : (s.setPc t).reg r = s.reg r := rfl
@[simp] theorem State.reg_setSp (s : State) (t : Byte) (r : Reg) : (s.setSp t).reg r = s.reg r := rfl
@[simp] theorem State.reg_setFl (s : State) (t : Byte) (r : Reg) : (s.setFl t).reg r = s.reg r := rfl
@[simp] theorem State.reg_emit (s : State) (e : Event) (r : Reg) : (s.emit e).reg r = s.reg r := rfl
@[simp] theorem State.reg_halt (s : State) (c : HaltReason) (r : Reg) : (s.halt c).reg r = s.reg r := rfl
@[simp] theorem State.reg_push (s : State) (v : Byte) (r : Reg) : (s.push v).reg r = s.reg r := rfl
@[simp] theorem State.reg_popped (s : State) (r : Reg) : s.popped.reg r = s.reg r := rfl
@[simp] theorem State.reg_advance (s : State) (n : Nat) (r : Reg) : (s.advance n).reg r = s.reg r := rfl
@[simp] theorem State.reg_jump (s : State) (t : Byte) (r : Reg) : (s.jump t).reg r = s.reg r := rfl

@[simp] theorem State.memRead_setReg (s : State) (r : Reg) (v a : Byte) : (s.setReg r v).memRead a = s.memRead a := rfl
@[simp] theorem State.memRead_setPc (s : State) (t a : Byte) : (s.setPc t).memRead a = s.memRead a := rfl
@[simp] theorem State.memRead_setSp (s : State) (t a : Byte) : (s.setSp t).memRead a = s.memRead a := rfl
@[simp] theorem State.memRead_setFl (s : State) (t a : Byte) : (s.setFl t).memRead a = s.memRead a := rfl
@[simp] theorem State.memRead_emit (s : State) (e : Event) (a : Byte) : (s.emit e).memRead a = s.memRead a := rfl
@[simp] theorem State.memRead_halt (s : State) (c : HaltReason) (a : Byte) : (s.halt c).memRead a = s.memRead a := rfl
@[simp] theorem State.memRead_popped (s : State) (a : Byte) : s.popped.memRead a = s.memRead a := rfl
@[simp] theorem State.memRead_advance (s : State) (n : Nat) (a : Byte) : (s.advance n).memRead a = s.memRead a := rfl
@[simp] theorem State.memRead_jump (s : State) (t a : Byte) : (s.jump t).memRead a = s.memRead a := rfl

/-- Memory after a push: only the byte at the decremented sp. -/
theorem State.memRead_push {s : State} (hs : s.mem.wf = true) (v a : Byte) :
    (s.push v).memRead a = if pushAddr s = a then v else s.memRead a :=
  State.memRead_memWrite (s := s.setSp (pushAddr s)) hs _ _ _

/-- A push keeps memory canonical. -/
theorem State.push_wf {s : State} (v : Byte) (hs : s.mem.wf = true) : (s.push v).mem.wf = true :=
  Memory.write_wf (pushAddr s) v hs

/-- What the end of an instruction answers. -/
@[simp] theorem finish_eq_next {n : Nat} {s t : State} : finish n s = .next t ↔ t = s.advance n := by
  simp [finish, eq_comm]

/-- What an instruction of two register operands answers. -/
@[simp] theorem binaryOp_eq_next {f : Byte → Byte → Byte} {ra rb : Reg} {s t : State} :
    binaryOp f ra rb s = .next t ↔ t = (s.setReg ra (f (s.reg ra) (s.reg rb))).advance 2 := by
  simp [binaryOp, regValue]

/-- What an instruction of one register operand answers. -/
@[simp] theorem unaryOp_eq_next {f : Byte → Byte} {ra : Reg} {s t : State} :
    unaryOp f ra s = .next t ↔ t = (s.setReg ra (f (s.reg ra))).advance 1 := by
  simp [unaryOp, regValue]

/-- What a conditional jump answers. -/
theorem jumpIf_eq_next {c : Bool} {ra : Reg} {s t : State} :
    jumpIf c ra s = .next t ↔ t = if c then (s.jump (s.reg ra)).advance 1 else s.advance 1 := by
  cases c <;> simp [jumpIf, targetValue]

/-- The bias of a jump and the advance of a two-byte instruction cancel. -/
theorem State.jump_advance_pc (s : State) (t : Byte) : ((s.jump t).advance 1).pc = t := by
  simp [u8]

/-- Run start moves exactly an IDLE machine. -/
theorem runStart_eq_next {s t : State} :
    runStart s = .next t ↔ s.status = .idle ∧ t = { s.setSp (s.reg 7) with status := .running } := by
  cases h : s.status <;> simp [runStart, h, eq_comm]

/-- Loading moves exactly an IDLE machine and an image that fits. -/
theorem loadImage_eq_next {image : List Byte} {s t : State} :
    loadImage image s = .next t ↔
      s.status = .idle ∧ image.length ≤ Config.memSize ∧ t = s.storeBytes 0x00#8 image := by
  cases h : s.status <;> by_cases hl : image.length ≤ Config.memSize <;> simp [loadImage, h, hl, eq_comm]

/-- A preset moves exactly an IDLE machine. -/
theorem presetReg_eq_next {r : Reg} {v : Byte} {s t : State} :
    presetReg r v s = .next t ↔ s.status = .idle ∧ t = s.setReg r v := by
  cases h : s.status <;> simp [presetReg, h, eq_comm]

/-- A next state of the machine comes from a run start or from one instruction. -/
theorem step_cases {s t : State} (h : step s = .next t) :
    (s.status = .idle ∧ t = { s.setSp (s.reg 7) with status := .running }) ∨
      (s.status = .running ∧ exec (decodeInstr (fetch s).ir (fetch s).ops) s = .next t) := by
  unfold step transition at h
  split at h
  · exact .inl (runStart_eq_next.mp h)
  · exact .inr ⟨‹_›, h⟩
  · cases h

/-- Fetching as many bytes as asked for. -/
@[simp] theorem State.bytesAt_length (s : State) (a : Byte) (k : Nat) : (s.bytesAt a k).length = k := by
  induction k generalizing a with
  | zero => rfl
  | succ k ih => simp [State.bytesAt, ih]

/-- The first bytes of a longer read are the shorter read. -/
theorem State.bytesAt_take (s : State) (a : Byte) (k n : Nat) (h : k ≤ n) :
    (s.bytesAt a n).take k = s.bytesAt a k := by
  induction k generalizing a n with
  | zero => rfl
  | succ k ih =>
    cases n with
    | zero => omega
    | succ n => simpa [State.bytesAt] using ih (a + 1) n (by omega)

end Sys2Proof.Machine
end

