-- ==== Sys2Proof/Laws/Decode.lean ====
section
/-! SUPPORT. The small lemmas of the encoding tables: each operation's opcode byte, operand counts, register bytes. -/

namespace Sys2Proof

@[simp] theorem opcodeOf_ldi : opcodeOf .ldi = 0x82#8 := by decide
@[simp] theorem opcodeOf_prn : opcodeOf .prn = 0x47#8 := by decide
@[simp] theorem opcodeOf_hlt : opcodeOf .hlt = 0x01#8 := by decide
@[simp] theorem opcodeOf_add : opcodeOf .add = 0xA0#8 := by decide
@[simp] theorem opcodeOf_mul : opcodeOf .mul = 0xA2#8 := by decide
@[simp] theorem opcodeOf_mod : opcodeOf .mod = 0xA4#8 := by decide
@[simp] theorem opcodeOf_cmp : opcodeOf .cmp = 0xA7#8 := by decide
@[simp] theorem opcodeOf_and : opcodeOf .and = 0xA8#8 := by decide
@[simp] theorem opcodeOf_or : opcodeOf .or = 0xAA#8 := by decide
@[simp] theorem opcodeOf_xor : opcodeOf .xor = 0xAB#8 := by decide
@[simp] theorem opcodeOf_not : opcodeOf .not = 0x69#8 := by decide
@[simp] theorem opcodeOf_shl : opcodeOf .shl = 0xAC#8 := by decide
@[simp] theorem opcodeOf_shr : opcodeOf .shr = 0xAD#8 := by decide
@[simp] theorem opcodeOf_push : opcodeOf .push = 0x45#8 := by decide
@[simp] theorem opcodeOf_pop : opcodeOf .pop = 0x46#8 := by decide
@[simp] theorem opcodeOf_jmp : opcodeOf .jmp = 0x54#8 := by decide
@[simp] theorem opcodeOf_jeq : opcodeOf .jeq = 0x55#8 := by decide
@[simp] theorem opcodeOf_jne : opcodeOf .jne = 0x56#8 := by decide
@[simp] theorem opcodeOf_jgt : opcodeOf .jgt = 0x57#8 := by decide
@[simp] theorem opcodeOf_jlt : opcodeOf .jlt = 0x58#8 := by decide
@[simp] theorem opcodeOf_jle : opcodeOf .jle = 0x59#8 := by decide
@[simp] theorem opcodeOf_jge : opcodeOf .jge = 0x5A#8 := by decide
@[simp] theorem opcodeOf_call : opcodeOf .call = 0x50#8 := by decide
@[simp] theorem opcodeOf_ret : opcodeOf .ret = 0x11#8 := by decide

/-- The map read forwards and backwards: an operation's opcode byte decodes to it. -/
theorem decodeOp_opcodeOf (m : Mnemonic) : decodeOp (opcodeOf m) = some m := by
  cases m <;> decide

/-- A byte that decodes to an operation is that operation's opcode byte. -/
theorem opcodeOf_of_decodeOp {ir : Byte} {m : Mnemonic} (h : decodeOp ir = some m) : opcodeOf m = ir := by
  have key : ∀ row ∈ opcodeMap, opcodeOf row.mnemonic = row.byte := by decide
  obtain ⟨row, hrow, rfl⟩ := Option.map_eq_some_iff.mp h
  rw [key row (List.mem_of_find?_eq_some hrow)]
  simpa using List.find?_some hrow

/-- The operand count as the top two bits, a number below 4. -/
theorem operandCount_eq (ir : Byte) : operandCount ir = ir.toNat / 64 := by
  simp [operandCount, Nat.shiftRight_eq_div_pow]

theorem operandCount_lt (ir : Byte) : operandCount ir < 4 := by
  rw [operandCount_eq]; omega

/-- A register number survives being written as an operand byte. -/
@[simp] theorem u3_regByte (r : Reg) : u3 (regByte r) = r := by
  revert r; decide

@[simp] theorem opa_cons (b : Byte) (ops : List Byte) : opa (b :: ops) = b := rfl

@[simp] theorem opb_cons_cons (a b : Byte) (ops : List Byte) : opb (a :: b :: ops) = b := rfl

end Sys2Proof
end

