-- ==== Sys2Proof/Laws/Exec.lean ====
section
/-! SUPPORT. What each meaning answers, one lemma per meaning, and the inversion of `exec`: everything one instruction can do. -/

namespace Sys2Proof.Machine

variable {s t : State} {ra rb : Reg}

theorem execLdi_eq_next {imm8 : Byte} : execLdi ra imm8 s = .next t ↔ t = (s.setReg ra imm8).advance 2 := finish_eq_next
theorem execPrn_eq_next : execPrn ra s = .next t ↔ t = (s.emit (.print (s.reg ra))).advance 1 := finish_eq_next
theorem execHlt_eq_next : execHlt s = .next t ↔ t = (s.halt .hlt).advance 0 := finish_eq_next
theorem execAdd_eq_next : execAdd ra rb s = .next t ↔ t = (s.setReg ra (aluAdd (s.reg ra) (s.reg rb))).advance 2 :=
  binaryOp_eq_next
theorem execMul_eq_next : execMul ra rb s = .next t ↔ t = (s.setReg ra (aluMul (s.reg ra) (s.reg rb))).advance 2 :=
  binaryOp_eq_next
theorem execAnd_eq_next : execAnd ra rb s = .next t ↔ t = (s.setReg ra (aluAnd (s.reg ra) (s.reg rb))).advance 2 :=
  binaryOp_eq_next
theorem execOr_eq_next : execOr ra rb s = .next t ↔ t = (s.setReg ra (aluOr (s.reg ra) (s.reg rb))).advance 2 :=
  binaryOp_eq_next
theorem execXor_eq_next : execXor ra rb s = .next t ↔ t = (s.setReg ra (aluXor (s.reg ra) (s.reg rb))).advance 2 :=
  binaryOp_eq_next
theorem execShl_eq_next : execShl ra rb s = .next t ↔ t = (s.setReg ra (aluShl (s.reg ra) (s.reg rb))).advance 2 :=
  binaryOp_eq_next
theorem execShr_eq_next : execShr ra rb s = .next t ↔ t = (s.setReg ra (aluShr (s.reg ra) (s.reg rb))).advance 2 :=
  binaryOp_eq_next
theorem execNot_eq_next : execNot ra s = .next t ↔ t = (s.setReg ra (aluNot (s.reg ra))).advance 1 := unaryOp_eq_next
theorem execCmp_eq_next :
    execCmp ra rb s = .next t ↔ t = (s.setFl (compareFlags (s.reg ra) (s.reg rb))).advance 2 := finish_eq_next

/-- MOD: the guard's effect when regB is 0, the remainder otherwise. -/
theorem execMod_eq_next :
    execMod ra rb s = .next t ↔
      t = if s.reg rb = 0x00#8 then ((s.emit .diagModZero).halt .modZero).advance 2
        else (s.setReg ra (aluMod (s.reg ra) (s.reg rb))).advance 2 := by
  unfold execMod
  by_cases h : s.reg rb = 0x00#8 <;> simp [h]

theorem execPush_eq_next : execPush ra s = .next t ↔ t = (s.push (s.reg ra)).advance 1 := finish_eq_next
theorem execPop_eq_next : execPop ra s = .next t ↔ t = (s.popped.setReg ra (popValue s)).advance 1 := finish_eq_next
theorem execJmp_eq_next : execJmp ra s = .next t ↔ t = (s.jump (s.reg ra)).advance 1 := finish_eq_next
theorem execCall_eq_next :
    execCall ra s = .next t ↔ t = ((s.push (returnByte s)).jump (s.reg ra)).advance 1 := finish_eq_next
theorem execRet_eq_next : execRet s = .next t ↔ t = (s.popped.setPc (popValue s)).advance 0 := finish_eq_next
theorem execUnrecognised_eq_next {ir : Byte} :
    execUnrecognised ir s = .next t ↔ t = s.advance (operandCount ir) := finish_eq_next

/-- A conditional jump either goes to its target or only advances. -/
theorem jumpIf_cases {c : Bool} (h : jumpIf c ra s = .next t) :
    t = (s.jump (s.reg ra)).advance 1 ∨ t = s.advance 1 := by
  rw [jumpIf_eq_next] at h
  cases c <;> simp_all

/-- Everything one instruction can do. -/
inductive Effect : Instr → State → State → Prop where
  /-- one register is written -/
  | ldi (ra : Reg) (imm8 : Byte) (s : State) : Effect (.ldi ra imm8) s ((s.setReg ra imm8).advance 2)
  | not (ra : Reg) (s : State) : Effect (.not ra) s ((s.setReg ra (aluNot (s.reg ra))).advance 1)
  | binary (op : Reg → Reg → Instr) (f : Byte → Byte → Byte) (ra rb : Reg) (s : State)
      (hop : op ∈ [Instr.add, .mul, .and, .or, .xor, .shl, .shr]) :
      Effect (op ra rb) s ((s.setReg ra (f (s.reg ra) (s.reg rb))).advance 2)
  | mod (ra rb : Reg) (s : State) (h : s.reg rb ≠ 0x00#8) :
      Effect (.mod ra rb) s ((s.setReg ra (aluMod (s.reg ra) (s.reg rb))).advance 2)
  | pop (ra : Reg) (s : State) : Effect (.pop ra) s ((s.popped.setReg ra (popValue s)).advance 1)
  /-- output, halt or flags -/
  | prn (ra : Reg) (s : State) : Effect (.prn ra) s ((s.emit (.print (s.reg ra))).advance 1)
  | hlt (s : State) : Effect .hlt s ((s.halt .hlt).advance 0)
  | modZero (ra rb : Reg) (s : State) (h : s.reg rb = 0x00#8) :
      Effect (.mod ra rb) s (((s.emit .diagModZero).halt .modZero).advance 2)
  | cmp (ra rb : Reg) (s : State) : Effect (.cmp ra rb) s ((s.setFl (compareFlags (s.reg ra) (s.reg rb))).advance 2)
  /-- memory is written -/
  | push (ra : Reg) (s : State) : Effect (.push ra) s ((s.push (s.reg ra)).advance 1)
  | call (ra : Reg) (s : State) : Effect (.call ra) s (((s.push (returnByte s)).jump (s.reg ra)).advance 1)
  /-- pc, and for RET sp, alone -/
  | taken (op : Reg → Instr) (ra : Reg) (s : State) (hop : op ∈ [Instr.jmp, .jeq, .jne, .jgt, .jlt, .jle, .jge]) :
      Effect (op ra) s ((s.jump (s.reg ra)).advance 1)
  | notTaken (op : Reg → Instr) (ra : Reg) (s : State) (hop : op ∈ [Instr.jeq, .jne, .jgt, .jlt, .jle, .jge]) :
      Effect (op ra) s (s.advance 1)
  | ret (s : State) : Effect .ret s ((s.popped.setPc (popValue s)).advance 0)
  | unrecognised (ir : Byte) (s : State) : Effect (.unrecognised ir) s (s.advance (operandCount ir))

/-- A conditional jump's effect. -/
theorem Effect.ofJumpIf {c : Bool} {op : Reg → Instr} (hop : op ∈ [Instr.jeq, .jne, .jgt, .jlt, .jle, .jge])
    (h : jumpIf c ra s = .next t) : Effect (op ra) s t := by
  rcases jumpIf_cases h with rfl | rfl
  · exact .taken op ra s (List.mem_cons_of_mem _ hop)
  · exact .notTaken op ra s hop

/-- The inversion of `exec`: a next state is one of the effects. -/
theorem exec_effect {i : Instr} (h : exec i s = .next t) : Effect i s t := by
  cases i with
  | ldi ra imm8 => rw [execLdi_eq_next.mp h]; exact .ldi ra imm8 s
  | prn ra => rw [execPrn_eq_next.mp h]; exact .prn ra s
  | hlt => rw [execHlt_eq_next.mp h]; exact .hlt s
  | add ra rb => rw [execAdd_eq_next.mp h]; exact .binary .add aluAdd ra rb s (by simp)
  | mul ra rb => rw [execMul_eq_next.mp h]; exact .binary .mul aluMul ra rb s (by simp)
  | mod ra rb =>
    rw [execMod_eq_next.mp h]
    split
    · exact .modZero ra rb s ‹_›
    · exact .mod ra rb s ‹_›
  | cmp ra rb => rw [execCmp_eq_next.mp h]; exact .cmp ra rb s
  | and ra rb => rw [execAnd_eq_next.mp h]; exact .binary .and aluAnd ra rb s (by simp)
  | or ra rb => rw [execOr_eq_next.mp h]; exact .binary .or aluOr ra rb s (by simp)
  | xor ra rb => rw [execXor_eq_next.mp h]; exact .binary .xor aluXor ra rb s (by simp)
  | not ra => rw [execNot_eq_next.mp h]; exact .not ra s
  | shl ra rb => rw [execShl_eq_next.mp h]; exact .binary .shl aluShl ra rb s (by simp)
  | shr ra rb => rw [execShr_eq_next.mp h]; exact .binary .shr aluShr ra rb s (by simp)
  | push ra => rw [execPush_eq_next.mp h]; exact .push ra s
  | pop ra => rw [execPop_eq_next.mp h]; exact .pop ra s
  | jmp ra => rw [execJmp_eq_next.mp h]; exact .taken .jmp ra s (by simp)
  | jeq ra => exact .ofJumpIf (op := .jeq) (by simp) h
  | jne ra => exact .ofJumpIf (op := .jne) (by simp) h
  | jgt ra => exact .ofJumpIf (op := .jgt) (by simp) h
  | jlt ra => exact .ofJumpIf (op := .jlt) (by simp) h
  | jle ra => exact .ofJumpIf (op := .jle) (by simp) h
  | jge ra => exact .ofJumpIf (op := .jge) (by simp) h
  | call ra => rw [execCall_eq_next.mp h]; exact .call ra s
  | ret => rw [execRet_eq_next.mp h]; exact .ret s
  | unrecognised ir => rw [execUnrecognised_eq_next.mp h]; exact .unrecognised ir s

end Sys2Proof.Machine
end

