-- ==== Sys2Proof/Laws/PerInstr.lean ====
section
/-! SUPPORT. A fact of every instruction as syntax, one lemma per constructor. -/

/-- An encoding is as long as its opcode's two high bits say (spec/30_encoding.md R70, R78), at most four bytes. -/
def Sys2Proof.Laws.EncodedLength.Statement (i : Sys2Proof.Instr) : Prop :=
  (Sys2Proof.encode i).length = 1 + Sys2Proof.operandCount i.opcode ∧ (Sys2Proof.encode i).length ≤ 4

theorem Sys2Proof.Laws.EncodedLength.ldi (ra : Sys2Proof.Reg) (imm8 : Sys2Proof.Byte) : Sys2Proof.Laws.EncodedLength.Statement (.ldi ra imm8) := by
  simp [Sys2Proof.Laws.EncodedLength.Statement, Sys2Proof.encode, Sys2Proof.Instr.operandBytes, Sys2Proof.Instr.opcode, Sys2Proof.operandCount]

theorem Sys2Proof.Laws.EncodedLength.prn (ra : Sys2Proof.Reg) : Sys2Proof.Laws.EncodedLength.Statement (.prn ra) := by
  simp [Sys2Proof.Laws.EncodedLength.Statement, Sys2Proof.encode, Sys2Proof.Instr.operandBytes, Sys2Proof.Instr.opcode, Sys2Proof.operandCount]

theorem Sys2Proof.Laws.EncodedLength.hlt : Sys2Proof.Laws.EncodedLength.Statement .hlt := by
  simp [Sys2Proof.Laws.EncodedLength.Statement, Sys2Proof.encode, Sys2Proof.Instr.operandBytes, Sys2Proof.Instr.opcode, Sys2Proof.operandCount]

theorem Sys2Proof.Laws.EncodedLength.add (ra : Sys2Proof.Reg) (rb : Sys2Proof.Reg) : Sys2Proof.Laws.EncodedLength.Statement (.add ra rb) := by
  simp [Sys2Proof.Laws.EncodedLength.Statement, Sys2Proof.encode, Sys2Proof.Instr.operandBytes, Sys2Proof.Instr.opcode, Sys2Proof.operandCount]

theorem Sys2Proof.Laws.EncodedLength.mul (ra : Sys2Proof.Reg) (rb : Sys2Proof.Reg) : Sys2Proof.Laws.EncodedLength.Statement (.mul ra rb) := by
  simp [Sys2Proof.Laws.EncodedLength.Statement, Sys2Proof.encode, Sys2Proof.Instr.operandBytes, Sys2Proof.Instr.opcode, Sys2Proof.operandCount]

theorem Sys2Proof.Laws.EncodedLength.mod (ra : Sys2Proof.Reg) (rb : Sys2Proof.Reg) : Sys2Proof.Laws.EncodedLength.Statement (.mod ra rb) := by
  simp [Sys2Proof.Laws.EncodedLength.Statement, Sys2Proof.encode, Sys2Proof.Instr.operandBytes, Sys2Proof.Instr.opcode, Sys2Proof.operandCount]

theorem Sys2Proof.Laws.EncodedLength.cmp (ra : Sys2Proof.Reg) (rb : Sys2Proof.Reg) : Sys2Proof.Laws.EncodedLength.Statement (.cmp ra rb) := by
  simp [Sys2Proof.Laws.EncodedLength.Statement, Sys2Proof.encode, Sys2Proof.Instr.operandBytes, Sys2Proof.Instr.opcode, Sys2Proof.operandCount]

theorem Sys2Proof.Laws.EncodedLength.and (ra : Sys2Proof.Reg) (rb : Sys2Proof.Reg) : Sys2Proof.Laws.EncodedLength.Statement (.and ra rb) := by
  simp [Sys2Proof.Laws.EncodedLength.Statement, Sys2Proof.encode, Sys2Proof.Instr.operandBytes, Sys2Proof.Instr.opcode, Sys2Proof.operandCount]

theorem Sys2Proof.Laws.EncodedLength.or (ra : Sys2Proof.Reg) (rb : Sys2Proof.Reg) : Sys2Proof.Laws.EncodedLength.Statement (.or ra rb) := by
  simp [Sys2Proof.Laws.EncodedLength.Statement, Sys2Proof.encode, Sys2Proof.Instr.operandBytes, Sys2Proof.Instr.opcode, Sys2Proof.operandCount]

theorem Sys2Proof.Laws.EncodedLength.xor (ra : Sys2Proof.Reg) (rb : Sys2Proof.Reg) : Sys2Proof.Laws.EncodedLength.Statement (.xor ra rb) := by
  simp [Sys2Proof.Laws.EncodedLength.Statement, Sys2Proof.encode, Sys2Proof.Instr.operandBytes, Sys2Proof.Instr.opcode, Sys2Proof.operandCount]

theorem Sys2Proof.Laws.EncodedLength.not (ra : Sys2Proof.Reg) : Sys2Proof.Laws.EncodedLength.Statement (.not ra) := by
  simp [Sys2Proof.Laws.EncodedLength.Statement, Sys2Proof.encode, Sys2Proof.Instr.operandBytes, Sys2Proof.Instr.opcode, Sys2Proof.operandCount]

theorem Sys2Proof.Laws.EncodedLength.shl (ra : Sys2Proof.Reg) (rb : Sys2Proof.Reg) : Sys2Proof.Laws.EncodedLength.Statement (.shl ra rb) := by
  simp [Sys2Proof.Laws.EncodedLength.Statement, Sys2Proof.encode, Sys2Proof.Instr.operandBytes, Sys2Proof.Instr.opcode, Sys2Proof.operandCount]

theorem Sys2Proof.Laws.EncodedLength.shr (ra : Sys2Proof.Reg) (rb : Sys2Proof.Reg) : Sys2Proof.Laws.EncodedLength.Statement (.shr ra rb) := by
  simp [Sys2Proof.Laws.EncodedLength.Statement, Sys2Proof.encode, Sys2Proof.Instr.operandBytes, Sys2Proof.Instr.opcode, Sys2Proof.operandCount]

theorem Sys2Proof.Laws.EncodedLength.push (ra : Sys2Proof.Reg) : Sys2Proof.Laws.EncodedLength.Statement (.push ra) := by
  simp [Sys2Proof.Laws.EncodedLength.Statement, Sys2Proof.encode, Sys2Proof.Instr.operandBytes, Sys2Proof.Instr.opcode, Sys2Proof.operandCount]

theorem Sys2Proof.Laws.EncodedLength.pop (ra : Sys2Proof.Reg) : Sys2Proof.Laws.EncodedLength.Statement (.pop ra) := by
  simp [Sys2Proof.Laws.EncodedLength.Statement, Sys2Proof.encode, Sys2Proof.Instr.operandBytes, Sys2Proof.Instr.opcode, Sys2Proof.operandCount]

theorem Sys2Proof.Laws.EncodedLength.jmp (ra : Sys2Proof.Reg) : Sys2Proof.Laws.EncodedLength.Statement (.jmp ra) := by
  simp [Sys2Proof.Laws.EncodedLength.Statement, Sys2Proof.encode, Sys2Proof.Instr.operandBytes, Sys2Proof.Instr.opcode, Sys2Proof.operandCount]

theorem Sys2Proof.Laws.EncodedLength.jeq (ra : Sys2Proof.Reg) : Sys2Proof.Laws.EncodedLength.Statement (.jeq ra) := by
  simp [Sys2Proof.Laws.EncodedLength.Statement, Sys2Proof.encode, Sys2Proof.Instr.operandBytes, Sys2Proof.Instr.opcode, Sys2Proof.operandCount]

theorem Sys2Proof.Laws.EncodedLength.jne (ra : Sys2Proof.Reg) : Sys2Proof.Laws.EncodedLength.Statement (.jne ra) := by
  simp [Sys2Proof.Laws.EncodedLength.Statement, Sys2Proof.encode, Sys2Proof.Instr.operandBytes, Sys2Proof.Instr.opcode, Sys2Proof.operandCount]

theorem Sys2Proof.Laws.EncodedLength.jgt (ra : Sys2Proof.Reg) : Sys2Proof.Laws.EncodedLength.Statement (.jgt ra) := by
  simp [Sys2Proof.Laws.EncodedLength.Statement, Sys2Proof.encode, Sys2Proof.Instr.operandBytes, Sys2Proof.Instr.opcode, Sys2Proof.operandCount]

theorem Sys2Proof.Laws.EncodedLength.jlt (ra : Sys2Proof.Reg) : Sys2Proof.Laws.EncodedLength.Statement (.jlt ra) := by
  simp [Sys2Proof.Laws.EncodedLength.Statement, Sys2Proof.encode, Sys2Proof.Instr.operandBytes, Sys2Proof.Instr.opcode, Sys2Proof.operandCount]

theorem Sys2Proof.Laws.EncodedLength.jle (ra : Sys2Proof.Reg) : Sys2Proof.Laws.EncodedLength.Statement (.jle ra) := by
  simp [Sys2Proof.Laws.EncodedLength.Statement, Sys2Proof.encode, Sys2Proof.Instr.operandBytes, Sys2Proof.Instr.opcode, Sys2Proof.operandCount]

theorem Sys2Proof.Laws.EncodedLength.jge (ra : Sys2Proof.Reg) : Sys2Proof.Laws.EncodedLength.Statement (.jge ra) := by
  simp [Sys2Proof.Laws.EncodedLength.Statement, Sys2Proof.encode, Sys2Proof.Instr.operandBytes, Sys2Proof.Instr.opcode, Sys2Proof.operandCount]

theorem Sys2Proof.Laws.EncodedLength.call (ra : Sys2Proof.Reg) : Sys2Proof.Laws.EncodedLength.Statement (.call ra) := by
  simp [Sys2Proof.Laws.EncodedLength.Statement, Sys2Proof.encode, Sys2Proof.Instr.operandBytes, Sys2Proof.Instr.opcode, Sys2Proof.operandCount]

theorem Sys2Proof.Laws.EncodedLength.ret : Sys2Proof.Laws.EncodedLength.Statement .ret := by
  simp [Sys2Proof.Laws.EncodedLength.Statement, Sys2Proof.encode, Sys2Proof.Instr.operandBytes, Sys2Proof.Instr.opcode, Sys2Proof.operandCount]

theorem Sys2Proof.Laws.EncodedLength.unrecognised (ir : Sys2Proof.Byte) : Sys2Proof.Laws.EncodedLength.Statement (.unrecognised ir) := by
  refine ⟨by simp [Sys2Proof.encode, Sys2Proof.Instr.operandBytes, Sys2Proof.Instr.opcode, Nat.add_comm], ?_⟩
  simp only [Sys2Proof.encode, Sys2Proof.Instr.operandBytes, List.length_cons, List.length_replicate]
  have := Sys2Proof.operandCount_lt ir
  omega
end

