-- ==== Sys2Proof/Tests/Slice0.lean ====
section
/-! SUPPORT. The model's own tests: words and results written out from spec/30_encoding.md, the rules and spec/95_test_vectors.md,
and for each statement with hypotheses a witness that meets them all. -/

namespace Sys2Proof.Tests

open Sys2Proof Sys2Proof.Machine

/-- The construction state after run start (spec/95_test_vectors.md, opening). -/
def boot : State := { State.reset with sp := 0xF4#8, status := .running }

/-- `boot` with bytes at ascending addresses from 0. -/
def code (bs : List Byte) : State := boot.storeBytes 0x00#8 bs

/-- A step that answers a next state with a property. -/
def stepsTo (s : State) (p : State → Bool) : Bool :=
  match step s with
  | .next t => p t
  | .fault _ => false
  | .refused _ => false

/-- An instruction that answers a next state with a property. -/
def runsTo (i : Instr) (s : State) (p : State → Bool) : Bool :=
  match exec i s with
  | .next t => p t
  | .fault _ => false
  | .refused _ => false

/-- The state an outcome answers, `boot` if it answers none; for witnesses. -/
def stateOf (o : Host.Outcome State Fault Refusal) : State :=
  match o with
  | .next t => t
  | .fault _ => boot
  | .refused _ => boot

/-- The first instruction of a byte list. -/
def first (bs : List Byte) : Option Instr := (decode bs).toOption.map (·.1)

/-! ## Decoding: words from R74's binary column and R71's formats -/

theorem test_decode_ldi : first [0b10000010#8, 0b00001001#8, 0b00000101#8] = some (.ldi 1 5#8) := by decide
theorem test_decode_prn : first [0b01000111#8, 0b00000000#8] = some (.prn 0) := by decide
theorem test_decode_hlt : first [0b00000001#8] = some .hlt := by decide
theorem test_decode_add : first [0b10100000#8, 0b11111000#8, 0b00001111#8] = some (.add 0 7) := by decide
theorem test_decode_mul : first [0b10100010#8, 0b00000001#8, 0b00000010#8] = some (.mul 1 2) := by decide
theorem test_decode_mod : first [0b10100100#8, 0b00000001#8, 0b00000010#8] = some (.mod 1 2) := by decide
theorem test_decode_cmp : first [0b10100111#8, 0b00000001#8, 0b00000010#8] = some (.cmp 1 2) := by decide
theorem test_decode_and : first [0b10101000#8, 0b00000001#8, 0b00000010#8] = some (.and 1 2) := by decide
theorem test_decode_or : first [0b10101010#8, 0b00000001#8, 0b00000010#8] = some (.or 1 2) := by decide
theorem test_decode_xor : first [0b10101011#8, 0b00000001#8, 0b00000010#8] = some (.xor 1 2) := by decide
theorem test_decode_not : first [0b01101001#8, 0b00000011#8] = some (.not 3) := by decide
theorem test_decode_shl : first [0b10101100#8, 0b00000001#8, 0b00000010#8] = some (.shl 1 2) := by decide
theorem test_decode_shr : first [0b10101101#8, 0b00000001#8, 0b00000010#8] = some (.shr 1 2) := by decide
theorem test_decode_push : first [0b01000101#8, 0b00000100#8] = some (.push 4) := by decide
theorem test_decode_pop : first [0b01000110#8, 0b00000101#8] = some (.pop 5) := by decide
theorem test_decode_jmp : first [0b01010100#8, 0b00000110#8] = some (.jmp 6) := by decide
theorem test_decode_jeq : first [0b01010101#8, 0b00000111#8] = some (.jeq 7) := by decide
theorem test_decode_jne : first [0b01010110#8, 0b00000010#8] = some (.jne 2) := by decide
theorem test_decode_jgt : first [0b01010111#8, 0b00000010#8] = some (.jgt 2) := by decide
theorem test_decode_jlt : first [0b01011000#8, 0b00000010#8] = some (.jlt 2) := by decide
theorem test_decode_jle : first [0b01011001#8, 0b00000010#8] = some (.jle 2) := by decide
theorem test_decode_jge : first [0b01011010#8, 0b00000010#8] = some (.jge 2) := by decide
theorem test_decode_call : first [0b01010000#8, 0b00000001#8] = some (.call 1) := by decide
theorem test_decode_ret : first [0b00010001#8] = some .ret := by decide
theorem test_decode_unrecognised : first [0xA1#8, 0#8, 0#8] = some (.unrecognised 0xA1#8) := by decide
theorem test_decode_four_bytes : decode [0xC0#8, 1#8, 2#8, 3#8, 4#8] = .ok (.unrecognised 0xC0#8, [4#8]) := by rfl
theorem test_decode_rejects_empty : decode [] = .error .noOpcode := by rfl
theorem test_decode_rejects_truncated : decode [0x82#8, 0x00#8] = .error (.missingOperand 0x82#8) := by rfl
theorem test_decodeTableWord : decodeTableWord 24 0x080082 = some (.ldi 0 8#8) := by decide
theorem test_decodeTableWord_opcode_only : decodeTableWord 8 0xA0 = some (.add 0 0) := by decide

/-- The check refuses a recognised byte under the name unrecognised, and passes a real one. -/
theorem test_wf_refuses_recognised_byte : (Instr.unrecognised 0x82#8).wf = false := by decide
theorem test_wf_passes_unrecognised_byte : (Instr.unrecognised 0xFF#8).wf = true := by decide

/-! ## Assembler and output text (R79, R111, D13) -/

theorem test_asm_ldi : (Instr.ldi 0 8#8).asm = some ['L', 'D', 'I', ' ', 'R', '0', ',', '8'] := by decide
theorem test_asm_hlt : Instr.hlt.asm = some ['H', 'L', 'T'] := by decide
theorem test_render_print : renderEvent (.print 255#8) = ['2', '5', '5', '\n'] := by decide

/-! ## Instructions: one step from `code`, results from spec/95_test_vectors.md -/

theorem test_ldi_r7_keeps_sp : stepsTo (code [0x82#8, 7#8, 0x10#8])
    (fun t => t.reg 7 == 0x10#8 && t.sp == 0xF4#8 && t.pc == 3#8) = true := by decide
theorem test_ldi_fetch_wraps : stepsTo ((boot.storeBytes 0xFE#8 [0x82#8, 1#8, 9#8]).setPc 0xFE#8)
    (fun t => t.reg 1 == 9#8 && t.pc == 1#8) = true := by decide
theorem test_prn : stepsTo ((code [0x47#8, 4#8]).setReg 4 255#8)
    (fun t => t.out == [.print 255#8] && t.pc == 2#8) = true := by decide
theorem test_hlt : stepsTo ((boot.storeBytes 5#8 [0x01#8]).setPc 5#8)
    (fun t => t.status == .halted && t.haltReason == .hlt && t.pc == 6#8) = true := by decide
theorem test_add_wraps : stepsTo (((code [0xA0#8, 0#8, 1#8]).setReg 0 200#8).setReg 1 100#8)
    (fun t => t.reg 0 == 44#8 && t.reg 1 == 100#8 && t.fl == 0#8 && t.pc == 3#8) = true := by decide
theorem test_add_same_register : runsTo (.add 2 2) (boot.setReg 2 7#8) (fun t => t.reg 2 == 14#8) = true := by decide
theorem test_mul_low_byte : runsTo (.mul 0 1) ((boot.setReg 0 204#8).setReg 1 170#8) (fun t => t.reg 0 == 0x78#8) = true := by
  decide
theorem test_mod : runsTo (.mod 0 1) ((boot.setReg 0 17#8).setReg 1 5#8) (fun t => t.reg 0 == 2#8) = true := by decide
theorem test_mod_zero_halts : stepsTo ((code [0xA4#8, 0#8, 1#8]).setReg 0 5#8)
    (fun t => t.reg 0 == 5#8 && t.status == .halted && t.haltReason == .modZero && t.out == [.diagModZero] && t.pc == 3#8) =
      true := by decide
theorem test_cmp_greater_unsigned : runsTo (.cmp 0 1) ((boot.setReg 0 128#8).setReg 1 127#8) (fun t => t.fl == 0b010#8) = true := by
  decide
theorem test_cmp_less : runsTo (.cmp 0 1) ((boot.setReg 0 8#8).setReg 1 9#8) (fun t => t.fl == 0b100#8) = true := by decide
theorem test_and : runsTo (.and 0 1) ((boot.setReg 0 0xCC#8).setReg 1 0xAA#8) (fun t => t.reg 0 == 0x88#8) = true := by decide
theorem test_or : runsTo (.or 0 1) ((boot.setReg 0 0xCC#8).setReg 1 0xAA#8) (fun t => t.reg 0 == 0xEE#8) = true := by decide
theorem test_xor : runsTo (.xor 0 1) ((boot.setReg 0 0xCC#8).setReg 1 0xAA#8) (fun t => t.reg 0 == 0x66#8) = true := by decide
theorem test_not_is_two_bytes : stepsTo ((code [0x69#8, 0#8]).setReg 0 0xF0#8)
    (fun t => t.reg 0 == 0x0F#8 && t.pc == 2#8) = true := by decide
theorem test_shl_by_seven : runsTo (.shl 0 1) ((boot.setReg 0 0x81#8).setReg 1 7#8) (fun t => t.reg 0 == 0x80#8) = true := by decide
theorem test_shl_by_eight : runsTo (.shl 0 1) ((boot.setReg 0 1#8).setReg 1 8#8) (fun t => t.reg 0 == 0#8) = true := by decide
theorem test_shr_is_logical : runsTo (.shr 0 1) ((boot.setReg 0 0x81#8).setReg 1 1#8) (fun t => t.reg 0 == 0x40#8) = true := by decide
theorem test_push_wraps_at_zero : stepsTo (((code [0x45#8, 0#8]).setReg 0 0x77#8).setSp 0#8)
    (fun t => t.sp == 0xFF#8 && t.memRead 0xFF#8 == 0x77#8 && t.pc == 2#8) = true := by decide
theorem test_push_over_own_operand : stepsTo (((code [0x45#8, 0#8]).setReg 0 0x77#8).setSp 2#8)
    (fun t => t.memRead 1#8 == 0x77#8 && t.sp == 1#8) = true := by decide
theorem test_pop_wraps_at_ff : stepsTo (((code [0x46#8, 3#8]).memWrite 0xFF#8 0x5A#8).setSp 0xFF#8)
    (fun t => t.reg 3 == 0x5A#8 && t.sp == 0#8 && t.memRead 0xFF#8 == 0x5A#8) = true := by decide
theorem test_pop_r7_keeps_sp : stepsTo ((code [0x46#8, 7#8]).memWrite 0xF4#8 0x33#8)
    (fun t => t.reg 7 == 0x33#8 && t.sp == 0xF5#8) = true := by decide
theorem test_jmp_to_zero : runsTo (.jmp 2) (boot.setPc 5#8) (fun t => t.pc == 0#8) = true := by decide
theorem test_jeq_taken : runsTo (.jeq 3) ((boot.setReg 3 0x20#8).setFl 1#8) (fun t => t.pc == 0x20#8) = true := by decide
theorem test_jne_taken_at_reset_fl : runsTo (.jne 3) (boot.setReg 3 0x20#8) (fun t => t.pc == 0x20#8) = true := by decide
theorem test_jgt_not_taken_after_greater : runsTo (.jgt 2) (((boot.setPc 0x10#8).setReg 2 0x40#8).setFl 2#8)
    (fun t => t.pc == 0x12#8) = true := by decide
theorem test_jgt_taken_after_less : runsTo (.jgt 2) ((boot.setReg 2 0x40#8).setFl 4#8) (fun t => t.pc == 0x40#8) = true := by decide
theorem test_jlt_taken_after_greater : runsTo (.jlt 2) ((boot.setReg 2 0x40#8).setFl 2#8) (fun t => t.pc == 0x40#8) = true := by decide
theorem test_jle_taken_at_reset_fl : runsTo (.jle 2) (boot.setReg 2 0x40#8) (fun t => t.pc == 0x40#8) = true := by decide
theorem test_jle_not_taken_after_less : runsTo (.jle 2) (((boot.setPc 0x10#8).setReg 2 0x40#8).setFl 4#8)
    (fun t => t.pc == 0x12#8) = true := by decide
theorem test_jge_taken_after_less : runsTo (.jge 2) ((boot.setReg 2 0x40#8).setFl 4#8) (fun t => t.pc == 0x40#8) = true := by decide
theorem test_jge_not_taken_at_reset_fl : runsTo (.jge 2) (((boot.setPc 0x10#8).setReg 2 0x40#8).setFl 0#8)
    (fun t => t.pc == 0x12#8) = true := by decide
theorem test_call_at_ff : stepsTo (((boot.storeBytes 0xFF#8 [0x50#8, 3#8]).setReg 3 0x20#8).setPc 0xFF#8)
    (fun t => t.pc == 0x20#8 && t.sp == 0xF3#8 && t.memRead 0xF3#8 == 0#8) = true := by decide
theorem test_ret_adds_one : stepsTo (((code [0x11#8]).memWrite 0xF3#8 3#8).setSp 0xF3#8)
    (fun t => t.pc == 4#8 && t.sp == 0xF4#8 && t.memRead 0xF3#8 == 3#8) = true := by decide
theorem test_unrecognised_three_bytes : stepsTo (code [0xA1#8, 0#8, 0#8]) (fun t => t == (code [0xA1#8, 0#8, 0#8]).setPc 3#8) = true := by
  decide
theorem test_unrecognised_four_bytes : stepsTo (code [0xC0#8]) (fun t => t.pc == 4#8) = true := by decide

/-! ## Reset, host moves, status -/

theorem test_run_start_from_reset : stepsTo State.reset (fun t => t == boot) = true := by decide
theorem test_run_start_takes_preset_r7 : stepsTo (stateOf (presetReg 7 0x80#8 State.reset)) (fun t => t.sp == 0x80#8) = true := by
  decide
theorem test_halted_has_no_step : step ({ boot with status := .halted, haltReason := .hlt }) = .refused .halted := by rfl
theorem test_load_then_read : (stateOf (loadImage [0x82#8, 0#8, 8#8] State.reset)).memRead 2#8 = 8#8 := by decide
theorem test_withFetchWord_from_reset : stepsTo (State.reset.withFetchWord 24 0x080082)
    (fun t => t.reg 0 == 8#8 && t.pc == 3#8 && t.sp == 0xF4#8) = true := by decide
theorem test_writing_zero_removes_the_cell : (code [5#8, 0#8]).memWrite 0#8 0#8 = boot := by decide

/-! ## Witnesses: concrete values that meet the hypotheses of the statements that have some -/

/-- A machine that ran HLT. -/
def stopped : State := { boot with status := .halted, haltReason := .hlt }

theorem witness_RunStartCopiesR7ToSp : State.reset.status = .idle := by rfl
theorem witness_HaltedIsTerminalAndRunningNeverWaits : stopped.status = .halted ∧ boot.status = .running := by decide
theorem witness_LoadWritesTheImageFromAddressZero :
    State.reset.status = .idle ∧ State.reset.mem.wf = true ∧ (List.replicate 256 1#8).length ≤ 256 ∧
      256 < (List.replicate 257 1#8).length := by
  simp only [List.length_replicate]; decide
theorem witness_MemoryReadReturnsTheLatestWrite : (code [1#8, 2#8]).mem.wf = true ∧ 256 % 256 = 0 % 256 ∧ 255 % 256 ≠ 0 % 256 := by
  decide
theorem witness_CanonicalMemoriesThatReadAlikeAreEqual :
    Memory.wf [(0, 1#8), (255, 2#8)] = true ∧ Memory.wf [(255, 2#8), (0, 1#8)] = false ∧
      ∀ a : Byte, Memory.read [(0, 1#8), (255, 2#8)] a.toNat = Memory.read [(0, 1#8), (255, 2#8)] a.toNat :=
  ⟨by decide, by decide, fun _ => rfl⟩
theorem witness_FetchReadsOpcodeThenOperandBytes : 1 < (fetch (code [0xA0#8, 1#8, 2#8])).ops.length := by decide
theorem witness_DecoderMatchesTheWholeOpcodeByte :
    (∃ row ∈ opcodeMap, row.byte = 0x82#8) ∧ ∀ row ∈ opcodeMap, row.byte ≠ 0x00#8 := by decide
theorem witness_LengthComesFromTheTwoHighBits : 3 ≤ [1#8, 2#8, 3#8].length := by decide
theorem witness_RegisterOperandsAreTakenModuloEight :
    (7 : Reg).val = (0xFF#8).toNat % 8 ∧ (0 : Reg).val = (0xF8#8).toNat % 8 := by decide
theorem witness_DecodeInvertsEncode : (Instr.ldi 7 255#8).wf = true ∧ (Instr.unrecognised 0xFF#8).wf = true := by decide
theorem witness_DecodedInstructionsCarryTheirOpcode : decode [0x47#8, 0xFF#8, 9#8] = .ok (.prn 7, [9#8]) := by rfl
theorem witness_DecodingReadsOnlyTheFetchedOperands :
    [1#8, 2#8].length = (0xA0#8).toNat / 64 ∧ ([] : List Byte).length = (0x01#8).toNat / 64 := by decide
theorem witness_StepRunsTheDecodedInstruction :
    (code [0x45#8, 2#8]).status = .running ∧ decode ((code [0x45#8, 2#8]).bytesAt 0#8 4) = .ok (.push 2, [0#8, 0#8]) := by
  exact ⟨rfl, rfl⟩
theorem witness_PlacedWordIsTheNextInstruction :
    State.reset.mem.wf = true ∧ decodeTableWord 8 0x11 = some .ret := by decide
theorem witness_ModByNonzeroIsTheUnsignedRemainder : (boot.setReg 1 1#8).reg 1 ≠ 0x00#8 := by decide
theorem witness_ModByZeroHaltsWithTheDiagnostic : boot.reg 1 = 0x00#8 := by decide
theorem witness_CmpOverwritesFlWithOneCode :
    (boot.reg 0).toNat = (boot.reg 1).toNat ∧ (boot.reg 1).toNat < (boot.reg 7).toNat := by decide
theorem witness_ShiftsBelowEightScaleByPowersOfTwo : ((boot.setReg 1 7#8).reg 1).toNat < 8 := by decide
theorem witness_ShiftsByEightOrMoreGiveZero : 8 ≤ ((boot.setReg 1 8#8).reg 1).toNat := by decide
theorem witness_AluInstructionsWriteOnlyTheirDestination :
    (∃ t, exec (.add 0 1) boot = .next t) ∧ (∃ t, exec (.not 0) boot = .next t) ∧
      (∃ t, exec (.mod 0 1) boot = .next t ∧ boot.reg 1 = 0x00#8) ∧ ∃ t, exec (.cmp 0 1) boot = .next t :=
  ⟨⟨_, rfl⟩, ⟨_, rfl⟩, ⟨_, rfl, by decide⟩, ⟨_, rfl⟩⟩
theorem witness_PushStoresAtTheDecrementedSp : (boot.setSp 0#8).mem.wf = true := by decide
theorem witness_PushThenPopMovesTheValue : boot.mem.wf = true := by decide
theorem witness_EqualPushesAndPopsRestoreSp : ([0, 7] : List Reg).length = ([1, 1] : List Reg).length := by decide
theorem witness_PopsReturnThePushesInReverse : boot.mem.wf = true ∧ (List.replicate 256 1#8).length ≤ 256 := by
  simp only [List.length_replicate]; decide
theorem witness_FetchSeesThePushedByte : boot.mem.wf = true ∧ ∃ t, exec (.push 7) boot = .next t := ⟨by decide, ⟨_, rfl⟩⟩
theorem witness_ConditionalJumpsTestTheExactFlValue :
    (boot.setFl 4#8).fl.toNat = 1 ∨ (boot.setFl 4#8).fl.toNat = 4 := by decide
theorem witness_JleIsTakenExactlyWhenJgeIsNot : legalFl (boot.setFl 4#8).fl = true := by decide
theorem witness_JumpsBeforeAnyCompare :
    State.reset.fl = 0#8 ∧ State.reset.status = .idle ∧ (∃ t, step State.reset = .next t) ∧ boot.fl = 0#8 ∧
      (∀ ra rb, Instr.prn 0 ≠ .cmp ra rb) ∧ ∃ t, exec (.prn 0) boot = .next t :=
  ⟨rfl, rfl, ⟨_, rfl⟩, rfl, by simp, ⟨_, rfl⟩⟩
theorem witness_JumpsAfterCompareFollowTheTable : (boot.reg 0).toNat ≤ (boot.reg 7).toNat ∧ (boot.reg 0).toNat ≠ (boot.reg 7).toNat := by
  decide
theorem witness_CallPushesPcPlusOneAndJumps : (boot.setSp 0#8).mem.wf = true := by decide
theorem witness_ReturnResumesAfterTheCall :
    boot.mem.wf = true ∧ ∃ t, exec (.call 1) boot = .next t ∧ t.sp = t.sp ∧ t.memRead t.sp = t.memRead t.sp :=
  ⟨by decide, ⟨_, rfl, rfl, rfl⟩⟩
theorem witness_UnrecognisedOpcodeIsANoOp :
    (code [0xFF#8]).status = .running ∧ ∀ row ∈ opcodeMap, row.byte ≠ (code [0xFF#8]).memRead (code [0xFF#8]).pc := by decide
theorem witness_ZeroMemoryRunsNoOpsForever : boot.status = .running ∧ ∀ a : Byte, boot.memRead a = 0x00#8 := ⟨rfl, fun _ => rfl⟩
theorem witness_NoInstructionStopsAndOnlyHltAndModZeroHalt :
    boot.status = .running ∧ (∃ t, exec .hlt boot = .next t) ∧ ∃ t, exec (.prn 0) boot = .next t := ⟨rfl, ⟨_, rfl⟩, ⟨_, rfl⟩⟩
theorem witness_StatusMovesOnlyForward :
    (∃ t, step State.reset = .next t) ∧ (∃ t, step boot = .next t) ∧ ∃ t, step (code [0x01#8]) = .next t :=
  ⟨⟨_, rfl⟩, ⟨_, rfl⟩, ⟨_, rfl⟩⟩
theorem witness_OutputGrowsOnlyByPrnAndTheModGuard :
    State.reset.status = .idle ∧ (∃ t, step State.reset = .next t) ∧ (∃ t, exec (.prn 0) boot = .next t) ∧
      (∃ t, exec (.mod 0 1) boot = .next t ∧ boot.reg 1 = 0x00#8) ∧ ∃ t, exec .hlt boot = .next t :=
  ⟨rfl, ⟨_, rfl⟩, ⟨_, rfl⟩, ⟨_, rfl, by decide⟩, ⟨_, rfl⟩⟩
theorem witness_OnlyPushAndCallChangeMemory :
    (code [0x45#8, 7#8]).mem.wf = true ∧ ∃ t, step (code [0x45#8, 7#8]) = .next t ∧
      t.memRead 0xF3#8 ≠ (code [0x45#8, 7#8]).memRead 0xF3#8 := ⟨by decide, ⟨_, rfl, by decide⟩⟩
theorem witness_AStepWritesAtMostOneRegister :
    ∃ t, step (code [0x82#8, 0#8, 8#8]) = .next t ∧ t.reg 0 ≠ (code [0x82#8, 0#8, 8#8]).reg 0 := ⟨_, rfl, by decide⟩
theorem witness_R7AndSpAreIndependentWhileRunning :
    (∃ t u, exec (.push 7) boot = .next t ∧ exec (.push 7) (boot.setReg 7 1#8) = .next u) ∧ (∃ t, exec (.call 0) boot = .next t) ∧
      (∃ t, exec .ret boot = .next t) ∧ (0 : Reg) ≠ 7 ∧ ∃ t, exec (.pop 0) boot = .next t :=
  ⟨⟨_, _, rfl, rfl⟩, ⟨_, rfl⟩, ⟨_, rfl⟩, by decide, ⟨_, rfl⟩⟩
theorem witness_NonTransfersAdvanceByTheirEncodedLength :
    (∃ t, exec (.unrecognised 0xC0#8) boot = .next t) ∧ Instr.unrecognised 0xC0#8 ≠ .ret ∧
      ∀ ra, ∀ op ∈ [Instr.jmp, .jeq, .jne, .jgt, .jlt, .jle, .jge, .call], Instr.unrecognised 0xC0#8 ≠ op ra :=
  ⟨⟨_, rfl⟩, by decide, by simp⟩
theorem witness_EarlierOutputNeverInfluencesAStep : ∃ t, step (code [0x47#8, 7#8]) = .next t := ⟨_, rfl⟩
theorem witness_StepKeepsTheInvariant : (code [0xA4#8, 0#8, 1#8]).Inv ∧ ∃ t, step (code [0xA4#8, 0#8, 1#8]) = .next t :=
  ⟨⟨by decide, by decide, by decide, by decide⟩, ⟨_, rfl⟩⟩

end Sys2Proof.Tests
end

/-! PROOFS. The output (spec/10_state.md R30): what each move of the machine appends to it. -/

namespace Sys2Proof.Machine

/-- Run start writes only sp and the status. -/
theorem step_idle_out {s t : State} (hs : s.status = .idle) (h : step s = .next t) : t.out = s.out := by
  rcases step_cases h with ⟨-, rfl⟩ | ⟨hrun, -⟩
  · rfl
  · simp [hs] at hrun

theorem exec_prn_out {s t : State} {ra : Reg} (h : exec (.prn ra) s = .next t) :
    t.out = s.out ++ [.print (s.reg ra)] := by
  rw [execPrn_eq_next.mp h, State.advance_out, State.emit_out]

theorem exec_mod_zero_out {s t : State} {ra rb : Reg} (hrb : s.reg rb = 0x00#8)
    (h : exec (.mod ra rb) s = .next t) : t.out = s.out ++ [.diagModZero] := by
  rw [execMod_eq_next.mp h, if_pos hrb, State.advance_out, State.halt_out, State.emit_out]

/-- PRN and the zero guard are the only effects that emit an event. -/
theorem Effect.out_eq {i : Instr} {s t : State} (e : Effect i s t) (hprn : ∀ ra, i ≠ .prn ra)
    (hmod : ∀ ra rb, i = .mod ra rb → s.reg rb ≠ 0x00#8) : t.out = s.out := by
  cases e with
  | prn ra => exact absurd rfl (hprn ra)
  | modZero ra rb _ hrb => exact absurd hrb (hmod ra rb rfl)
  | _ => simp

/-- Settles O51: run start, PRN and the zero guard each by what they write, every other instruction by the inversion of
`exec`. -/
theorem outputGrowsOnlyByPrnAndTheModGuard : Obligations.OutputGrowsOnlyByPrnAndTheModGuard := by
  refine ⟨rfl, fun _ _ => step_idle_out, fun i s t h => ⟨?prn, ?modZero, ?other⟩⟩
  case prn =>
    rintro ra rfl
    exact exec_prn_out h
  case modZero =>
    rintro ra rb rfl hrb
    exact exec_mod_zero_out hrb h
  case other => exact (exec_effect h).out_eq

end Sys2Proof.Machine

/-! PROOFS. Memory (spec/20_memory.md R51): addresses modulo 256 and the law of one cell. -/

namespace Sys2Proof.Machine

/-- Two numbers name the same byte exactly when they agree modulo 256. -/
theorem u8_eq_u8_iff {m n : Nat} : u8 m = u8 n ↔ m % 256 = n % 256 := by
  rw [← BitVec.toNat_inj, BitVec.toNat_ofNat, BitVec.toNat_ofNat]

/-- Settles O6: the law of one byte, with its test on byte addresses read modulo 256. -/
theorem memoryReadReturnsTheLatestWrite : Obligations.MemoryReadReturnsTheLatestWrite := by
  intro s addr other value hs
  refine ⟨?read, ?frame⟩
  case read => simp only [State.memRead_memWrite hs, u8_eq_u8_iff]
  case frame => rfl

end Sys2Proof.Machine

/-! PROOFS. Fetch (spec/30_encoding.md R70): the bytes that follow an address, one at a time. -/

namespace Sys2Proof.Machine

theorem u8_add (m n : Nat) : u8 (m + n) = u8 m + u8 n := BitVec.ofNat_add m n

theorem u8_toNat (a : Byte) : u8 a.toNat = a := by simp

/-- The `k`-th of a run of bytes stands `k` addresses on, modulo 256. -/
theorem State.getElem_bytesAt (s : State) (a : Byte) {n k : Nat} (h : k < (s.bytesAt a n).length) :
    (s.bytesAt a n)[k] = s.memRead (a + u8 k) := by
  induction n generalizing a k with
  | zero => exact absurd h (by simp)
  | succ n ih =>
    cases k with
    | zero => simp [State.bytesAt]
    | succ k =>
      have haddr : a + 1 + u8 k = a + u8 (k + 1) := by rw [u8_add]; ac_rfl
      rw [← haddr]
      exact ih (a + 1) _

/-- Counting on from a byte, and reducing the sum modulo 256 at the end. -/
theorem add_one_add_u8 (a : Byte) (k : Nat) : a + 1 + u8 k = u8 (a.toNat + k + 1) := by
  rw [u8_add, u8_add, u8_toNat]
  ac_rfl

/-- Settles O8: the operands are a run of `IR >> 6` bytes from pc + 1. -/
theorem fetchReadsOpcodeThenOperandBytes : Obligations.FetchReadsOpcodeThenOperandBytes := by
  intro s
  refine ⟨rfl, ?count, fun k h => ?operand⟩
  case count => exact (State.bytesAt_length ..).trans (operandCount_eq _)
  case operand => exact (s.getElem_bytesAt (s.pc + 1) h).trans (congrArg s.memRead (add_one_add_u8 s.pc k))

end Sys2Proof.Machine

/-! PROOFS. The decoder (spec/30_encoding.md R73, R75, R78): what an opcode byte alone decides of the instruction. -/

namespace Sys2Proof

/-- No byte stands twice in the map, so that looking up a row's byte finds that row. -/
theorem decodeOp_byte {row : OpcodeRow} (h : row ∈ opcodeMap) : decodeOp row.byte = some row.mnemonic := by
  revert row
  decide

theorem decodeOp_eq_none {ir : Byte} : decodeOp ir = none ↔ ∀ row ∈ opcodeMap, row.byte ≠ ir := by
  simp only [decodeOp, Option.map_eq_none_iff, List.find?_eq_none, beq_iff_eq, ne_eq]

theorem decodeInstr_of_some {ir : Byte} {m : Mnemonic} (h : decodeOp ir = some m) (ops : List Byte) :
    decodeInstr ir ops = assemble m ops := by
  simp only [decodeInstr, h]

theorem decodeInstr_of_none {ir : Byte} (h : decodeOp ir = none) (ops : List Byte) :
    decodeInstr ir ops = .unrecognised ir := by
  simp only [decodeInstr, h]

theorem decodeInstr_opcodeOf (m : Mnemonic) (ops : List Byte) : decodeInstr (opcodeOf m) ops = assemble m ops :=
  decodeInstr_of_some (decodeOp_opcodeOf m) ops

theorem mnemonic?_assemble (m : Mnemonic) (ops : List Byte) : (assemble m ops).mnemonic? = some m := by
  cases m <;> rfl

theorem opcode_assemble (m : Mnemonic) (ops : List Byte) : (assemble m ops).opcode = opcodeOf m := by
  cases m <;> rfl

/-- A decoded instruction carries the byte it was decoded from, recognised or not. -/
theorem opcode_decodeInstr (ir : Byte) (ops : List Byte) : (decodeInstr ir ops).opcode = ir := by
  cases h : decodeOp ir with
  | none => rw [decodeInstr_of_none h]; rfl
  | some m => rw [decodeInstr_of_some h, opcode_assemble, opcodeOf_of_decodeOp h]

/-- With all its operand bytes there, an instruction is read from the front of a list. -/
theorem decode_cons {ir : Byte} {rest : List Byte} (h : operandCount ir ≤ rest.length) :
    decode (ir :: rest) =
      .ok (decodeInstr ir (rest.take (operandCount ir)), rest.drop (operandCount ir)) :=
  if_neg (Nat.not_lt.mpr h)

/-- The per-constructor lemmas of `Laws.EncodedLength` together. -/
theorem encodedLength (i : Instr) : Laws.EncodedLength.Statement i := by
  cases i with
  | ldi ra imm8 => exact Laws.EncodedLength.ldi ra imm8
  | prn ra => exact Laws.EncodedLength.prn ra
  | hlt => exact Laws.EncodedLength.hlt
  | add ra rb => exact Laws.EncodedLength.add ra rb
  | mul ra rb => exact Laws.EncodedLength.mul ra rb
  | mod ra rb => exact Laws.EncodedLength.mod ra rb
  | cmp ra rb => exact Laws.EncodedLength.cmp ra rb
  | and ra rb => exact Laws.EncodedLength.and ra rb
  | or ra rb => exact Laws.EncodedLength.or ra rb
  | xor ra rb => exact Laws.EncodedLength.xor ra rb
  | not ra => exact Laws.EncodedLength.not ra
  | shl ra rb => exact Laws.EncodedLength.shl ra rb
  | shr ra rb => exact Laws.EncodedLength.shr ra rb
  | push ra => exact Laws.EncodedLength.push ra
  | pop ra => exact Laws.EncodedLength.pop ra
  | jmp ra => exact Laws.EncodedLength.jmp ra
  | jeq ra => exact Laws.EncodedLength.jeq ra
  | jne ra => exact Laws.EncodedLength.jne ra
  | jgt ra => exact Laws.EncodedLength.jgt ra
  | jlt ra => exact Laws.EncodedLength.jlt ra
  | jle ra => exact Laws.EncodedLength.jle ra
  | jge ra => exact Laws.EncodedLength.jge ra
  | call ra => exact Laws.EncodedLength.call ra
  | ret => exact Laws.EncodedLength.ret
  | unrecognised ir => exact Laws.EncodedLength.unrecognised ir

theorem length_encode (i : Instr) : (encode i).length = 1 + operandCount i.opcode := (encodedLength i).1

/-- Settles O9: a byte of the map is looked up, any other is found in no row. -/
theorem decoderMatchesTheWholeOpcodeByte : Obligations.DecoderMatchesTheWholeOpcodeByte := by
  intro ir ops
  refine ⟨?inMap, fun h => ?notInMap, operandCount_eq ir⟩
  case inMap =>
    rintro row hrow rfl
    rw [decodeInstr_of_some (decodeOp_byte hrow), mnemonic?_assemble]
  case notInMap => exact decodeInstr_of_none (decodeOp_eq_none.mpr h) ops

/-- Settles O11: three bytes are enough for every operand count, and the encoding's length comes from the opcode carried. -/
theorem lengthComesFromTheTwoHighBits : Obligations.LengthComesFromTheTwoHighBits := by
  intro ir rest hrest
  have hlt := operandCount_lt ir
  simp only [← operandCount_eq]
  refine ⟨_, _, decode_cons (by omega), ?consumed, by omega, ?encoded⟩
  case consumed => rw [Nat.add_comm, List.drop_succ_cons]
  case encoded => rw [length_encode, opcode_decodeInstr]

/-- Settles O12: each operation's opcode selects it, and its operands are then read off the operand bytes. -/
theorem registerOperandsAreTakenModuloEight : Obligations.RegisterOperandsAreTakenModuloEight := by
  intro a b ra rb ha hb
  obtain rfl : ra = u3 a := Fin.ext ha
  obtain rfl : rb = u3 b := Fin.ext hb
  simp only [decodeInstr_opcodeOf, assemble, opa_cons, opb_cons_cons, and_self]

end Sys2Proof

/-! PROOFS. Frames (what an update keeps of the state, rules for `KeepsBut`) and what the ALU writes (spec/42_alu.md R131). -/

namespace Sys2Proof.Machine

theorem KeepsBut.mono {p q : List Part} {s t : State} (k : KeepsBut p s t) (h : p ⊆ q) : KeepsBut q s t :=
  ⟨fun r hr => k.reg r (mt (@h _) hr), fun hq => k.fl (mt (@h _) hq), fun hq => k.sp (mt (@h _) hq),
    fun a ha => k.mem a (mt (@h _) ha), fun hq => k.status (mt (@h _) hq), fun hq => k.haltReason (mt (@h _) hq),
    fun hq => k.out (mt (@h _) hq)⟩

theorem KeepsBut.trans {p : List Part} {s t u : State} (k : KeepsBut p s t) (l : KeepsBut p t u) : KeepsBut p s u :=
  ⟨fun r hr => (l.reg r hr).trans (k.reg r hr), fun h => (l.fl h).trans (k.fl h), fun h => (l.sp h).trans (k.sp h),
    fun a ha => (l.mem a ha).trans (k.mem a ha), fun h => (l.status h).trans (k.status h),
    fun h => (l.haltReason h).trans (k.haltReason h), fun h => (l.out h).trans (k.out h)⟩

/-- No part names pc, so the advance adds nothing to what changes. -/
theorem KeepsBut.advance {p : List Part} {s t : State} (k : KeepsBut p s t) (n : Nat) : KeepsBut p s (t.advance n) :=
  ⟨k.reg, k.fl, k.sp, k.mem, k.status, k.haltReason, k.out⟩

theorem State.keepsBut_setReg (s : State) (r : Reg) (v : Byte) : KeepsBut [.reg r] s (s.setReg r v) where
  reg r' h := by
    have hne : r ≠ r' := fun e => h (e ▸ List.mem_singleton_self _)
    rw [State.reg_setReg, if_neg hne]
  fl _ := rfl
  sp _ := rfl
  mem _ _ := rfl
  status _ := rfl
  haltReason _ := rfl
  out _ := rfl

theorem State.keepsBut_setFl (s : State) (v : Byte) : KeepsBut [.fl] s (s.setFl v) where
  reg _ _ := rfl
  fl h := absurd (by simp) h
  sp _ := rfl
  mem _ _ := rfl
  status _ := rfl
  haltReason _ := rfl
  out _ := rfl

theorem State.keepsBut_emit (s : State) (e : Event) : KeepsBut [.out] s (s.emit e) where
  reg _ _ := rfl
  fl _ := rfl
  sp _ := rfl
  mem _ _ := rfl
  status _ := rfl
  haltReason _ := rfl
  out h := absurd (by simp) h

theorem State.keepsBut_halt (s : State) (r : HaltReason) : KeepsBut [.status, .haltReason] s (s.halt r) where
  reg _ _ := rfl
  fl _ := rfl
  sp _ := rfl
  mem _ _ := rfl
  status h := absurd (by simp) h
  haltReason h := absurd (by simp) h
  out _ := rfl

/-- What the zero guard of MOD may change. -/
theorem State.keepsBut_emit_halt (s : State) (e : Event) (r : HaltReason) :
    KeepsBut [.out, .status, .haltReason] s ((s.emit e).halt r) :=
  ((s.keepsBut_emit e).mono (by simp)).trans (((s.emit e).keepsBut_halt r).mono (by simp))

/-- The seven unguarded operations of two registers are one form. -/
theorem exec_eq_binaryOp : ∀ op ∈ [Instr.add, .mul, .and, .or, .xor, .shl, .shr],
    ∃ f, ∀ ra rb s, exec (op ra rb) s = binaryOp f ra rb s := by
  simp only [List.forall_mem_cons]
  exact ⟨⟨aluAdd, fun _ _ _ => rfl⟩, ⟨aluMul, fun _ _ _ => rfl⟩, ⟨aluAnd, fun _ _ _ => rfl⟩, ⟨aluOr, fun _ _ _ => rfl⟩,
    ⟨aluXor, fun _ _ _ => rfl⟩, ⟨aluShl, fun _ _ _ => rfl⟩, ⟨aluShr, fun _ _ _ => rfl⟩, List.forall_mem_nil _⟩

/-- CMP's is the only effect that writes FL. -/
theorem Effect.fl_eq {i : Instr} {s t : State} (e : Effect i s t) (hcmp : ∀ ra rb, i ≠ .cmp ra rb) : t.fl = s.fl := by
  cases e with
  | cmp ra rb => exact absurd rfl (hcmp ra rb)
  | _ => rfl

/-- Settles O31: FL by the inversion of `exec`, every other clause by the frame of the one update its instruction makes; MOD by
its guard. -/
theorem aluInstructionsWriteOnlyTheirDestination : Obligations.AluInstructionsWriteOnlyTheirDestination := by
  refine ⟨fun _ _ _ h => (exec_effect h).fl_eq, ?binary, ?not, ?mod, ?cmp⟩
  case binary =>
    intro op hop ra rb s t h
    obtain ⟨f, hf⟩ := exec_eq_binaryOp op hop
    rw [hf] at h
    rw [binaryOp_eq_next.mp h]
    exact ⟨(s.keepsBut_setReg ra _).advance 2, rfl⟩
  case not =>
    intro ra s t h
    rw [execNot_eq_next.mp h]
    exact ⟨(s.keepsBut_setReg ra _).advance 1, rfl⟩
  case mod =>
    intro ra rb s t h
    rw [execMod_eq_next.mp h]
    split
    · exact ⟨((s.keepsBut_emit_halt _ _).mono (by simp)).advance 2, rfl, fun _ => rfl⟩
    · next hrb => exact ⟨((s.keepsBut_setReg ra _).mono (by simp)).advance 2, rfl, fun h0 => absurd h0 hrb⟩
  case cmp =>
    intro ra rb s t h
    rw [execCmp_eq_next.mp h]
    exact ⟨(s.keepsBut_setFl _).advance 2, rfl⟩

end Sys2Proof.Machine

/-! PROOFS. The conditional jumps (spec/44_control_transfer.md R162 to R168): each condition as a test on FL's value, and what
the one form does when the test holds and when it fails. -/

namespace Sys2Proof.Machine

theorem condJeq_iff (fl : Byte) : condJeq fl = true ↔ fl.toNat = 1 := by
  simp [condJeq, ← BitVec.toNat_inj]

theorem condJne_iff (fl : Byte) : condJne fl = true ↔ fl.toNat % 2 = 0 := beq_iff_eq

theorem condJge_iff (fl : Byte) : condJge fl = true ↔ fl.toNat = 1 ∨ fl.toNat = 4 := by
  simp [condJge, ← BitVec.toNat_inj]

theorem condJgt_iff (fl : Byte) : condJgt fl = true ↔ fl.toNat = 4 := by
  simp [condJgt, ← BitVec.toNat_inj]

theorem condJle_iff (fl : Byte) : condJle fl = true ↔ fl.toNat = 2 ∨ fl.toNat = 0 := by
  simp [condJle, ← BitVec.toNat_inj]

theorem condJlt_iff (fl : Byte) : condJlt fl = true ↔ fl.toNat = 2 := by
  simp [condJlt, ← BitVec.toNat_inj]

/-- The instruction is `jumpIf` on a condition that holds exactly when FL's value passes the test (R162). -/
def JumpsOnTest (jump : Reg → Instr) (test : Nat → Prop) : Prop :=
  ∃ cond : Byte → Bool, (∀ fl, cond fl = true ↔ test fl.toNat) ∧ ∀ ra s, exec (jump ra) s = jumpIf (cond s.fl) ra s

theorem jumpsOnTest_jeq : JumpsOnTest .jeq (fun fl => fl = 1) := ⟨condJeq, condJeq_iff, fun _ _ => rfl⟩
theorem jumpsOnTest_jne : JumpsOnTest .jne (fun fl => fl % 2 = 0) := ⟨condJne, condJne_iff, fun _ _ => rfl⟩
theorem jumpsOnTest_jge : JumpsOnTest .jge (fun fl => fl = 1 ∨ fl = 4) := ⟨condJge, condJge_iff, fun _ _ => rfl⟩
theorem jumpsOnTest_jgt : JumpsOnTest .jgt (fun fl => fl = 4) := ⟨condJgt, condJgt_iff, fun _ _ => rfl⟩
theorem jumpsOnTest_jle : JumpsOnTest .jle (fun fl => fl = 2 ∨ fl = 0) := ⟨condJle, condJle_iff, fun _ _ => rfl⟩
theorem jumpsOnTest_jlt : JumpsOnTest .jlt (fun fl => fl = 2) := ⟨condJlt, condJlt_iff, fun _ _ => rfl⟩

theorem JumpsOnTest.exec_taken {jump : Reg → Instr} {test : Nat → Prop} (hj : JumpsOnTest jump test) {s : State}
    (ht : test s.fl.toNat) (ra : Reg) : exec (jump ra) s = .next ((s.jump (s.reg ra)).advance 1) := by
  obtain ⟨cond, hcond, hexec⟩ := hj
  rw [hexec, jumpIf_eq_next, if_pos ((hcond _).mpr ht)]

theorem JumpsOnTest.exec_notTaken {jump : Reg → Instr} {test : Nat → Prop} (hj : JumpsOnTest jump test) {s : State}
    (ht : ¬ test s.fl.toNat) (ra : Reg) : exec (jump ra) s = .next (s.advance 1) := by
  obtain ⟨cond, hcond, hexec⟩ := hj
  rw [hexec, jumpIf_eq_next, if_neg (mt (hcond _).mp ht)]

theorem KeepsBut.refl (p : List Part) (s : State) : KeepsBut p s s where
  reg _ _ := rfl
  fl _ := rfl
  sp _ := rfl
  mem _ _ := rfl
  status _ := rfl
  haltReason _ := rfl
  out _ := rfl

/-- A jump writes pc, which no part names. -/
theorem KeepsBut.jump {p : List Part} {s t : State} (k : KeepsBut p s t) (target : Byte) : KeepsBut p s (t.jump target) :=
  ⟨k.reg, k.fl, k.sp, k.mem, k.status, k.haltReason, k.out⟩

theorem State.setReg_advance (s : State) (r : Reg) (v : Byte) (n : Nat) :
    (s.setReg r v).advance n = (s.advance n).setReg r v := rfl

/-- Settles O39: a jump with its test takes one of two updates of pc, and a register write commutes with the advance, the one
update left when the test fails. -/
theorem conditionalJumpsTestTheExactFlValue : Obligations.ConditionalJumpsTestTheExactFlValue := by
  intro jump hjump ra s
  have hj : JumpsOnTest jump.1 jump.2 := by
    revert jump
    simp only [List.forall_mem_cons]
    exact ⟨jumpsOnTest_jeq, jumpsOnTest_jne, jumpsOnTest_jge, jumpsOnTest_jgt, jumpsOnTest_jle, jumpsOnTest_jlt,
      List.forall_mem_nil _⟩
  by_cases ht : jump.2 s.fl.toNat
  case pos =>
    exact ⟨_, hj.exec_taken ht ra, ((KeepsBut.refl [] s).jump _).advance 1, fun _ => s.jump_advance_pc _, absurd ht⟩
  case neg =>
    refine ⟨_, hj.exec_notTaken ht ra, (KeepsBut.refl [] s).advance 1, fun h => absurd h ht,
      fun _ => ⟨rfl, fun v => ?unread⟩⟩
    case unread => rw [hj.exec_notTaken (s := s.setReg ra v) ht ra, State.setReg_advance]

end Sys2Proof.Machine

/-! PROOFS. Halts (spec/60_exceptions.md R200, R205): which moves a status allows, and which instructions write the status. -/

namespace Sys2Proof.Machine

/-- A RUNNING machine executes the instruction it fetches (spec/40_engine.md R90). -/
theorem step_of_running {s : State} (hs : s.status = .running) :
    step s = exec (decodeInstr (fetch s).ir (fetch s).ops) s := by
  simp only [step, transition, hs, engineStep]

theorem step_ne_next_of_halted {s t : State} (hs : s.status = .halted) : step s ≠ .next t := by
  intro h
  rcases step_cases h with ⟨hidle, -⟩ | ⟨hrun, -⟩
  · simp [hs] at hidle
  · simp [hs] at hrun

/-- Every handler ends in the common advance, on either side of MOD's guard and of a jump's condition. -/
theorem exec_exists_next (i : Instr) (s : State) : ∃ t, exec i s = .next t := by
  cases i with
  | mod ra rb => exact ⟨_, execMod_eq_next.mpr rfl⟩
  | jeq ra | jne ra | jgt ra | jlt ra | jle ra | jge ra => exact ⟨_, jumpIf_eq_next.mpr rfl⟩
  | _ => exact ⟨_, rfl⟩

/-- The two events that end execution: HLT, and MOD's guard on a zero divisor. -/
def Halts (i : Instr) (s : State) : Prop :=
  i = .hlt ∨ ∃ ra rb, i = .mod ra rb ∧ s.reg rb = 0x00#8

theorem Halts.status_eq {i : Instr} {s t : State} (hi : Halts i s) (h : exec i s = .next t) : t.status = .halted := by
  obtain rfl | ⟨ra, rb, rfl, hrb⟩ := hi
  · rw [execHlt_eq_next.mp h, State.advance_status, State.halt_status]
  · rw [execMod_eq_next.mp h, if_pos hrb, State.advance_status, State.halt_status]

/-- Only the two halting effects write the status. -/
theorem Effect.status_eq {i : Instr} {s t : State} (e : Effect i s t) (hi : ¬ Halts i s) : t.status = s.status := by
  cases e with
  | hlt => exact absurd (.inl rfl) hi
  | modZero ra rb _ hrb => exact absurd (.inr ⟨ra, rb, rfl, hrb⟩) hi
  | _ => rfl

/-- Settles O4: a step's next state comes from IDLE or RUNNING, a host move's from IDLE alone, and the instruction that a RUNNING
machine fetches always answers. -/
theorem haltedIsTerminalAndRunningNeverWaits : Obligations.HaltedIsTerminalAndRunningNeverWaits := by
  refine ⟨fun s hs t => ?halted, fun s hs => ?running⟩
  case halted =>
    have hidle : s.status ≠ .idle := by simp [hs]
    exact ⟨step_ne_next_of_halted hs, fun h => hidle (runStart_eq_next.mp h).1,
      fun _ h => hidle (loadImage_eq_next.mp h).1, fun _ _ h => hidle (presetReg_eq_next.mp h).1⟩
  case running =>
    rw [step_of_running hs]
    exact exec_exists_next _ s

/-- Settles O48: every handler answers, and a RUNNING machine's status is written exactly by the halting effects. -/
theorem noInstructionStopsAndOnlyHltAndModZeroHalt : Obligations.NoInstructionStopsAndOnlyHltAndModZeroHalt := by
  refine ⟨exec_exists_next, fun i s t hrun h => ?status⟩
  by_cases hi : Halts i s
  case pos =>
    have ht : t.status = .halted := hi.status_eq h
    exact ⟨iff_of_true ht hi, absurd ht⟩
  case neg =>
    have ht : t.status = .running := ((exec_effect h).status_eq hi).trans hrun
    exact ⟨iff_of_false (by simp [ht]) hi, fun _ => ht⟩

end Sys2Proof.Machine

/-! PROOFS. Before the first CMP (spec/70_reset_and_hazards.md R233): what keeps FL at 0, and where the jumps go while it is. -/

namespace Sys2Proof.Machine

/-- Run start writes only sp and the status. -/
theorem step_idle_fl {s t : State} (hs : s.status = .idle) (h : step s = .next t) : t.fl = s.fl := by
  rcases step_cases h with ⟨-, rfl⟩ | ⟨hrun, -⟩
  · rfl
  · simp [hs] at hrun

theorem JumpsOnTest.exists_next_at_target {jump : Reg → Instr} {test : Nat → Prop} (hj : JumpsOnTest jump test) {s : State}
    (ht : test s.fl.toNat) (ra : Reg) : ∃ t, exec (jump ra) s = .next t ∧ t.pc = s.reg ra :=
  ⟨_, hj.exec_taken ht ra, s.jump_advance_pc _⟩

theorem JumpsOnTest.exists_next_past_jump {jump : Reg → Instr} {test : Nat → Prop} (hj : JumpsOnTest jump test) {s : State}
    (ht : ¬ test s.fl.toNat) (ra : Reg) : ∃ t, exec (jump ra) s = .next t ∧ t.pc = s.pc + 2 :=
  ⟨_, hj.exec_notTaken ht ra, s.advance_pc 1⟩

/-- Settles O41: FL is 0 at reset, CMP's is the only effect that writes it, and each jump's test is decided at 0. -/
theorem jumpsBeforeAnyCompare : Obligations.JumpsBeforeAnyCompare := by
  refine ⟨rfl, fun i s t hfl hcmp h => ?instr, fun s t hfl hidle h => ?runStart, fun ra s hfl => ⟨?taken, ?notTaken⟩⟩
  case instr => exact ((exec_effect h).fl_eq hcmp).trans hfl
  case runStart => exact (step_idle_fl hidle h).trans hfl
  case taken =>
    simp only [List.forall_mem_cons]
    exact ⟨jumpsOnTest_jne.exists_next_at_target (by simp [hfl]) ra,
      jumpsOnTest_jle.exists_next_at_target (by simp [hfl]) ra, List.forall_mem_nil _⟩
  case notTaken =>
    simp only [List.forall_mem_cons]
    exact ⟨jumpsOnTest_jeq.exists_next_past_jump (by simp [hfl]) ra,
      jumpsOnTest_jge.exists_next_past_jump (by simp [hfl]) ra,
      jumpsOnTest_jgt.exists_next_past_jump (by simp [hfl]) ra,
      jumpsOnTest_jlt.exists_next_past_jump (by simp [hfl]) ra, List.forall_mem_nil _⟩

end Sys2Proof.Machine

/-! PROOFS. Encoding and decoding as inverses (spec/30_encoding.md R70 to R78): the operand bytes of an instruction, and what
is read back from them. -/

namespace Sys2Proof

theorem length_operandBytes (i : Instr) : i.operandBytes.length = operandCount i.opcode := by
  have h := length_encode i
  rw [encode, List.length_cons] at h
  omega

/-- An instruction is read back from its own opcode and operand bytes: a recognised one because its opcode selects its
operation and its register bytes keep the register numbers, an unrecognised one because no row holds its byte. -/
theorem decodeInstr_opcode_operandBytes {i : Instr} (hi : i.wf = true) : decodeInstr i.opcode i.operandBytes = i := by
  cases i with
  | unrecognised ir => exact decodeInstr_of_none (Option.isNone_iff_eq_none.mp hi) _
  | _ => exact (decodeInstr_opcodeOf _ _).trans (by simp [assemble, Instr.operandBytes])

/-- Settles O14: the operand bytes are as many as the opcode calls for, so the decoder takes exactly them and leaves the rest. -/
theorem decodeInvertsEncode : Obligations.DecodeInvertsEncode := by
  intro i rest hi
  have hlen := length_operandBytes i
  have hle : operandCount i.opcode ≤ (i.operandBytes ++ rest).length := by
    rw [List.length_append]
    omega
  rw [encode, List.cons_append, decode_cons hle, List.take_left' hlen, List.drop_left' hlen,
    decodeInstr_opcode_operandBytes hi]

theorem wf_assemble (m : Mnemonic) (ops : List Byte) : (assemble m ops).wf = true := by
  cases m <;> rfl

theorem wf_decodeInstr (ir : Byte) (ops : List Byte) : (decodeInstr ir ops).wf = true := by
  cases h : decodeOp ir with
  | none => rw [decodeInstr_of_none h, Instr.wf, h]; rfl
  | some m => rw [decodeInstr_of_some h, wf_assemble]

/-- What the decoder answers, and from which lists. -/
theorem decode_eq_ok {bs rest : List Byte} {i : Instr} :
    decode bs = .ok (i, rest) ↔ ∃ ir tail, bs = ir :: tail ∧ operandCount ir ≤ tail.length ∧
      i = decodeInstr ir (tail.take (operandCount ir)) ∧ rest = tail.drop (operandCount ir) := by
  cases bs with
  | nil => simp [decode]
  | cons ir tail =>
    by_cases h : operandCount ir ≤ tail.length
    · simp [decode_cons h, h, eq_comm]
    · simp [decode, h, Nat.not_le.mp h]

/-- Settles O15: the instruction read carries the opcode byte it was read from, which gives its length. -/
theorem decodedInstructionsCarryTheirOpcode : Obligations.DecodedInstructionsCarryTheirOpcode := by
  intro bs i rest h
  obtain ⟨ir, tail, rfl, hle, rfl, rfl⟩ := decode_eq_ok.mp h
  rw [length_encode, opcode_decodeInstr, Nat.add_comm]
  exact ⟨wf_decodeInstr _ _, rfl, rfl, Nat.succ_le_succ hle⟩

theorem opa_append {ops : List Byte} (h : 1 ≤ ops.length) (more : List Byte) : opa (ops ++ more) = opa ops :=
  List.getD_append _ _ _ _ h

theorem opb_append {ops : List Byte} (h : 2 ≤ ops.length) (more : List Byte) : opb (ops ++ more) = opb ops :=
  List.getD_append _ _ _ _ h

/-- An operation reads no operand byte past those its opcode calls for. -/
theorem assemble_append {m : Mnemonic} {ops : List Byte} (h : ops.length = operandCount (opcodeOf m)) (more : List Byte) :
    assemble m (ops ++ more) = assemble m ops := by
  cases m with
  | hlt | ret => rfl
  | prn | not | push | pop | jmp | jeq | jne | jgt | jlt | jle | jge | call =>
    have h1 : ops.length = 1 := h
    simp only [assemble, opa_append h1.ge]
  | ldi | add | mul | mod | cmp | and | or | xor | shl | shr =>
    have h2 : ops.length = 2 := h
    simp only [assemble, opb_append h2.ge, opa_append (show 1 ≤ ops.length by omega)]

theorem decodeInstr_append {ir : Byte} {ops : List Byte} (h : ops.length = operandCount ir) (more : List Byte) :
    decodeInstr ir (ops ++ more) = decodeInstr ir ops := by
  cases hop : decodeOp ir with
  | none => rw [decodeInstr_of_none hop, decodeInstr_of_none hop]
  | some m =>
    rw [decodeInstr_of_some hop, decodeInstr_of_some hop]
    exact assemble_append (h.trans (congrArg operandCount (opcodeOf_of_decodeOp hop).symm)) more

/-- Settles O16: whatever is put after the operand bytes called for, the instruction is the one read from them alone. -/
theorem decodingReadsOnlyTheFetchedOperands : Obligations.DecodingReadsOnlyTheFetchedOperands := by
  intro ir ops more more' h
  rw [← operandCount_eq] at h
  rw [decodeInstr_append h, decodeInstr_append h]

/-- Settles O10: a count over the 24 rows. -/
theorem opcodeMapIsInjectiveWithMatchingCounts : Obligations.OpcodeMapIsInjectiveWithMatchingCounts := by
  unfold Obligations.OpcodeMapIsInjectiveWithMatchingCounts
  decide

/-- Settles O13: each word's opcode byte selects its row, and its operand bytes are read off. -/
theorem sampleWordsDecodeAsTheSpecWritesThem : Obligations.SampleWordsDecodeAsTheSpecWritesThem :=
  ⟨rfl, rfl, rfl, rfl, rfl, rfl, rfl, rfl⟩

end Sys2Proof

/-! PROOFS. The invariant (spec/10_state.md R25, R28 to R30): reset meets it, and run start and each effect keep each of its
four parts. -/

namespace Sys2Proof.Machine

/-- Settles O1: each element is read off the construction state. -/
theorem resetLeavesTheConstructionValues : Obligations.ResetLeavesTheConstructionValues :=
  ⟨fun _ => rfl, by decide, rfl, rfl, rfl, rfl, rfl, rfl⟩

/-- Settles O2: at reset memory lists no cell, FL is 0, and there is neither a halt nor output. -/
theorem resetMeetsTheInvariant : Obligations.ResetMeetsTheInvariant where
  memWf := State.reset_mem_wf
  flLegal := rfl
  haltReasonIffHalted := by decide
  diagIffModZero := by decide

theorem legalFl_compareFlags (a b : Byte) : legalFl (compareFlags a b) = true := by
  unfold compareFlags
  split_ifs <;> rfl

theorem Effect.mem_wf {i : Instr} {s t : State} (e : Effect i s t) (hs : s.mem.wf = true) : t.mem.wf = true := by
  cases e with
  | push ra => exact State.push_wf _ hs
  | call ra => exact State.push_wf _ hs
  | _ => exact hs

theorem Effect.legalFl_fl {i : Instr} {s t : State} (e : Effect i s t) (hs : legalFl s.fl = true) :
    legalFl t.fl = true := by
  cases e with
  | cmp ra rb => exact legalFl_compareFlags _ _
  | _ => exact hs

/-- A halting effect writes the status and the halt reason together; no other writes either. -/
theorem Effect.haltReason_iff_halted {i : Instr} {s t : State} (e : Effect i s t)
    (hs : s.haltReason ≠ .none ↔ s.status = .halted) : t.haltReason ≠ .none ↔ t.status = .halted := by
  cases e with
  | hlt => simp
  | modZero ra rb => simp
  | _ => exact hs

/-- From a machine that has not halted the diagnostic comes with MOD_ZERO, both by the zero guard alone. -/
theorem Effect.diag_iff_modZero {i : Instr} {s t : State} (e : Effect i s t) (hnone : s.haltReason = .none)
    (hs : .diagModZero ∈ s.out ↔ s.haltReason = .modZero) : .diagModZero ∈ t.out ↔ t.haltReason = .modZero := by
  have hno : Event.diagModZero ∉ s.out := by simp [hs, hnone]
  cases e with
  | hlt => simp [hno]
  | modZero ra rb => simp
  | prn ra => simp [hno, hnone]
  | _ => exact hs

theorem State.Inv.haltReason_eq_none {s : State} (hs : s.Inv) (h : s.status ≠ .halted) : s.haltReason = .none := by
  by_contra hne
  exact h (hs.haltReasonIffHalted.mp hne)

theorem State.Inv.runStart {s : State} (hs : s.Inv) (hidle : s.status = .idle) :
    State.Inv { s.setSp (s.reg 7) with status := .running } where
  memWf := hs.memWf
  flLegal := hs.flLegal
  haltReasonIffHalted := by simp [hs.haltReason_eq_none (by simp [hidle])]
  diagIffModZero := hs.diagIffModZero

theorem Effect.inv {i : Instr} {s t : State} (e : Effect i s t) (hs : s.Inv) (hrun : s.status = .running) : t.Inv where
  memWf := e.mem_wf hs.memWf
  flLegal := e.legalFl_fl hs.flLegal
  haltReasonIffHalted := e.haltReason_iff_halted hs.haltReasonIffHalted
  diagIffModZero := e.diag_iff_modZero (hs.haltReason_eq_none (by simp [hrun])) hs.diagIffModZero

/-- Settles O57: a next state is a run start's or one instruction's, and each keeps the four parts. -/
theorem stepKeepsTheInvariant : Obligations.StepKeepsTheInvariant := by
  intro s t hs h
  rcases step_cases h with ⟨hidle, rfl⟩ | ⟨hrun, hexec⟩
  · exact hs.runStart hidle
  · exact (exec_effect hexec).inv hs hrun

end Sys2Proof.Machine

/-! PROOFS. The canonical form of memory (spec/20_memory.md R50): it leaves one list for each contents. -/

namespace Sys2Proof.Machine

/-- The first cell of a canonical memory tells it from every memory canonical past that cell. -/
theorem Memory.read_head_ne {lo k : Nat} {v : Byte} {m m' : Memory} (hm : Memory.wfFrom lo ((k, v) :: m) = true)
    (hm' : Memory.wfFrom (k + 1) m' = true) : Memory.read ((k, v) :: m) k ≠ Memory.read m' k := by
  obtain ⟨-, -, hv, -⟩ := (Memory.wfFrom_cons ..).mp hm
  rw [Memory.read_cons, if_pos rfl, Memory.read_below hm' k.lt_succ_self]
  exact hv

/-- Canonical memories that read alike have the same first address: the lower of two would be read at in one memory only. -/
theorem Memory.head_not_lt {lo k k' : Nat} {v v' : Byte} {m m' : Memory} (hm : Memory.wfFrom lo ((k, v) :: m) = true)
    (hm' : Memory.wfFrom lo ((k', v') :: m') = true)
    (h : ∀ a < Config.memSize, Memory.read ((k, v) :: m) a = Memory.read ((k', v') :: m') a) : ¬ k < k' := by
  intro hlt
  have hk : k < Config.memSize := ((Memory.wfFrom_cons ..).mp hm).2.1
  obtain ⟨-, hcells'⟩ := (Memory.wfFrom_cons ..).mp hm'
  exact Memory.read_head_ne hm ((Memory.wfFrom_cons ..).mpr ⟨hlt, hcells'⟩) (h k hk)

theorem Memory.eq_of_read_eq {lo : Nat} {m m' : Memory} (hm : Memory.wfFrom lo m = true)
    (hm' : Memory.wfFrom lo m' = true) (h : ∀ a < Config.memSize, m.read a = m'.read a) : m = m' := by
  induction m generalizing lo m' with
  | nil =>
    cases m' with
    | nil => rfl
    | cons c' m' =>
      obtain ⟨-, hk', -⟩ := (Memory.wfFrom_cons ..).mp hm'
      exact absurd (h _ hk').symm (Memory.read_head_ne hm' rfl)
  | cons c m ih =>
    obtain ⟨k, v⟩ := c
    obtain ⟨-, hk, -, hrest⟩ := (Memory.wfFrom_cons ..).mp hm
    cases m' with
    | nil => exact absurd (h k hk) (Memory.read_head_ne hm rfl)
    | cons c' m' =>
      obtain ⟨k', v'⟩ := c'
      obtain ⟨-, -, -, hrest'⟩ := (Memory.wfFrom_cons ..).mp hm'
      obtain rfl : k = k' :=
        le_antisymm (not_lt.mp (Memory.head_not_lt hm' hm fun a ha => (h a ha).symm))
          (not_lt.mp (Memory.head_not_lt hm hm' h))
      obtain rfl : v = v' := by simpa using h k hk
      have htail : ∀ a < Config.memSize, Memory.read m a = Memory.read m' a := by
        intro a ha
        by_cases hka : k = a
        · subst hka
          rw [Memory.read_below hrest k.lt_succ_self, Memory.read_below hrest' k.lt_succ_self]
        · simpa [hka] using h a ha
      rw [ih hrest hrest' htail]

/-- Settles O7: the addresses of memory are the values of a byte. -/
theorem canonicalMemoriesThatReadAlikeAreEqual : Obligations.CanonicalMemoriesThatReadAlikeAreEqual := by
  intro m m' hm hm' h
  refine Memory.eq_of_read_eq hm hm' fun a ha => ?_
  simpa [Nat.mod_eq_of_lt (show a < 256 from ha)] using h (u8 a)

end Sys2Proof.Machine

/-! PROOFS. Loading (spec/70_reset_and_hazards.md R223): what storing a run of bytes changes of the state. -/

namespace Sys2Proof.Machine

/-- Storing bytes writes memory alone. -/
theorem State.storeBytes_eq (s : State) (a : Byte) (bs : List Byte) :
    s.storeBytes a bs = { s with mem := (s.storeBytes a bs).mem } := by
  induction bs generalizing s a with
  | nil => rfl
  | cons v bs ih => exact ih (s.memWrite a v) (a + 1)

@[simp] theorem State.storeBytes_pc (s : State) (a : Byte) (bs : List Byte) : (s.storeBytes a bs).pc = s.pc := by
  rw [State.storeBytes_eq]

@[simp] theorem State.storeBytes_status (s : State) (a : Byte) (bs : List Byte) :
    (s.storeBytes a bs).status = s.status := by
  rw [State.storeBytes_eq]

theorem add_u8_succ (a : Byte) (k : Nat) : a + u8 (k + 1) = a + 1 + u8 k := by
  rw [u8_add]
  ac_rfl

/-- Fewer than 256 steps on from an address never come back to it. -/
theorem ne_add_u8_succ (a : Byte) {k : Nat} (h : k + 1 < 256) : a ≠ a + u8 (k + 1) := by
  intro he
  have hzero : u8 (k + 1) = u8 0 := by simpa using he
  rw [u8_eq_u8_iff] at hzero
  omega

/-- Of at most 256 bytes stored from an address on, the `k`-th is read `k` addresses on; past them memory is as it was. -/
theorem State.memRead_storeBytes {s : State} (hs : s.mem.wf = true) (a : Byte) {bs : List Byte} (hbs : bs.length ≤ 256)
    {k : Nat} (hk : k < 256) : (s.storeBytes a bs).memRead (a + u8 k) = bs.getD k (s.memRead (a + u8 k)) := by
  induction bs generalizing s a k with
  | nil => rfl
  | cons v bs ih =>
    rw [List.length_cons] at hbs
    have hrest {j : Nat} (hj : j < 256) : (s.storeBytes a (v :: bs)).memRead (a + 1 + u8 j) =
        bs.getD j ((s.memWrite a v).memRead (a + 1 + u8 j)) := ih (Memory.write_wf a v hs) (a + 1) (by omega) hj
    cases k with
    | zero =>
      have haround : a + 1 + u8 255 = a := by rw [BitVec.add_assoc]; exact BitVec.add_zero a
      have hfirst := hrest (j := 255) (by omega)
      rw [List.getD_eq_default _ _ (by omega), haround, State.memRead_memWrite hs, if_pos rfl] at hfirst
      rw [BitVec.add_zero, hfirst, List.getD_cons_zero]
    | succ k =>
      rw [add_u8_succ, hrest (by omega), ← add_u8_succ, State.memRead_memWrite hs, if_neg (ne_add_u8_succ a hk),
        List.getD_cons_succ]

/-- Settles O5: loading is storing from address 0, and every byte is an address counted from there. -/
theorem loadWritesTheImageFromAddressZero : Obligations.LoadWritesTheImageFromAddressZero := by
  intro s image hidle hs
  refine ⟨fun hlen => ⟨_, loadImage_eq_next.mpr ⟨hidle, hlen, rfl⟩, fun k hk => ?image, fun a ha => ?past, ?frame⟩,
    fun hlen => ?tooLong⟩
  case image =>
    have h := State.memRead_storeBytes hs 0#8 hlen (hk.trans_le hlen)
    rwa [BitVec.zero_add, List.getD_eq_getElem _ _ hk] at h
  case past =>
    have h := State.memRead_storeBytes hs 0#8 hlen a.isLt
    rwa [BitVec.zero_add, u8_toNat, List.getD_eq_default _ _ ha] at h
  case frame => exact State.storeBytes_eq ..
  case tooLong =>
    have hlong : ¬ image.length ≤ Config.memSize := not_le.mpr hlen
    simp only [loadImage, hidle, if_neg hlong]

end Sys2Proof.Machine

/-! PROOFS. The instruction cycle (spec/40_engine.md R90): the step runs what the bytes at pc decode to. -/

namespace Sys2Proof.Machine

/-- A fetch and the decoder read the same instruction from four bytes at pc. -/
theorem decode_bytesAt_pc (s : State) :
    decode (s.bytesAt s.pc 4) = .ok (decodeInstr (fetch s).ir (fetch s).ops,
      (s.bytesAt (s.pc + 1) 3).drop (operandCount (fetch s).ir)) := by
  have hcount : operandCount (s.memRead s.pc) ≤ 3 := Nat.le_of_lt_succ (operandCount_lt _)
  rw [State.bytesAt, decode_cons (by simpa using hcount), State.bytesAt_take _ _ _ _ hcount]
  rfl

/-- Settles O17: the decoder's answer on the four bytes at pc is the fetched instruction. -/
theorem stepRunsTheDecodedInstruction : Obligations.StepRunsTheDecodedInstruction := by
  intro s i rest hrun h
  rw [decode_bytesAt_pc] at h
  cases h
  exact step_of_running hrun

/-- At most 256 bytes stored from an address on are read back from there. -/
theorem State.bytesAt_storeBytes {s : State} (hs : s.mem.wf = true) (a : Byte) {bs : List Byte}
    (hbs : bs.length ≤ 256) : (s.storeBytes a bs).bytesAt a bs.length = bs := by
  refine List.ext_getElem (State.bytesAt_length ..) fun k hk hk' => ?_
  rw [State.getElem_bytesAt, State.memRead_storeBytes hs a hbs (by omega), List.getD_eq_getElem]

theorem State.started_status (s : State) : s.started.status = .running := by
  unfold State.started
  split
  · rfl
  · assumption
  · rfl

@[simp] theorem State.started_mem (s : State) : s.started.mem = s.mem := by
  unfold State.started
  split <;> rfl

@[simp] theorem State.started_pc (s : State) : s.started.pc = s.pc := by
  unfold State.started
  split <;> rfl

theorem decode_of_decodeTableWord {nbits w : Nat} {i : Instr} (h : decodeTableWord nbits w = some i) :
    ∃ rest, decode (tableBytes nbits w) = .ok (i, rest) := by
  unfold decodeTableWord at h
  split at h
  · next rest hdecode => exact ⟨rest, Option.some.inj h ▸ hdecode⟩
  · cases h

/-- Settles O18: the four bytes of the word are read back at pc, and the machine is RUNNING. -/
theorem placedWordIsTheNextInstruction : Obligations.PlacedWordIsTheNextInstruction := by
  intro s nbits w i hs hi
  have hrun : (s.withFetchWord nbits w).status = .running := by
    rw [State.withFetchWord, State.storeBytes_status, State.started_status]
  have hbytes : (s.withFetchWord nbits w).bytesAt (s.withFetchWord nbits w).pc 4 = tableBytes nbits w := by
    rw [State.withFetchWord, State.storeBytes_pc, State.started_pc]
    exact State.bytesAt_storeBytes (bs := tableBytes nbits w) (by rw [State.started_mem, hs]) s.pc
      (show 4 ≤ 256 by decide)
  obtain ⟨rest, hdecode⟩ := decode_of_decodeTableWord hi
  exact stepRunsTheDecodedInstruction _ i rest hrun (hbytes ▸ hdecode)

end Sys2Proof.Machine

/-! PROOFS. Load, print and halt (spec/41_load_print_halt.md R110 to R112): each is one update and the advance. -/

namespace Sys2Proof.Machine

/-- Settles O19: one register write. -/
theorem ldiLoadsTheImmediate : Obligations.LdiLoadsTheImmediate := fun ra imm8 s =>
  ⟨_, execLdi_eq_next.mpr rfl, by simp, rfl, (s.keepsBut_setReg ra imm8).advance 2⟩

/-- Settles O20: one event emitted. -/
theorem prnAppendsThePrintEvent : Obligations.PrnAppendsThePrintEvent := fun _ s =>
  ⟨_, execPrn_eq_next.mpr rfl, rfl, rfl, (s.keepsBut_emit _).advance 1⟩

/-- Settles O21: the two fields a halt writes. -/
theorem hltHalts : Obligations.HltHalts := fun s =>
  ⟨_, execHlt_eq_next.mpr rfl, rfl, rfl, rfl, (s.keepsBut_halt .hlt).advance 0⟩

theorem digitChar_eq_ofNat {d : Nat} (h : d < 10) : Nat.digitChar d = Char.ofNat (48 + d) := by
  revert d
  decide

/-- The three lengths of `decimalDigits` are the cases of the library's digits in base 10. -/
theorem decimalDigits_eq_toDigits (v : Byte) : decimalDigits v = Nat.toDigits 10 v.toNat := by
  have hv : v.toNat < 256 := v.isLt
  unfold decimalDigits
  simp only
  split_ifs with h1 h2
  · rw [Nat.toDigits_of_lt_base h1, digitChar_eq_ofNat h1]
  · rw [Nat.toDigits_of_base_le (by decide) (by omega), Nat.toDigits_of_lt_base (by omega), digitChar_eq_ofNat (by omega),
      digitChar_eq_ofNat (by omega)]
    rfl
  · rw [Nat.toDigits_of_base_le (by decide) (by omega), Nat.toDigits_of_base_le (by decide) (by omega),
      Nat.toDigits_of_lt_base (by omega), digitChar_eq_ofNat (by omega), digitChar_eq_ofNat (by omega),
      digitChar_eq_ofNat (by omega), Nat.div_div_eq_div_mul]
    rfl

/-- Settles O22: the digits are those of the library. -/
theorem printedByteRendersInDecimal : Obligations.PrintedByteRendersInDecimal := fun v =>
  congrArg (· ++ ['\n']) (decimalDigits_eq_toDigits v)

end Sys2Proof.Machine

/-! PROOFS. The ALU's values (spec/42_alu.md R121 to R130): what each byte function computes, and that its result is what its
instruction writes to regA. -/

namespace Sys2Proof.Machine

/-- A property of the computed byte is one of the destination register. -/
theorem exists_next_of_binaryOp {f : Byte → Byte → Byte} {ra rb : Reg} {s : State} {i : Instr} (P : Byte → Prop)
    (hi : exec i s = binaryOp f ra rb s) (h : P (f (s.reg ra) (s.reg rb))) :
    ∃ t, exec i s = .next t ∧ P (t.reg ra) ∧ t.pc = s.pc + 3 ∧ KeepsBut [.reg ra] s t :=
  ⟨_, hi.trans (binaryOp_eq_next.mpr rfl), by simpa using h, rfl, (s.keepsBut_setReg ra _).advance 2⟩

theorem aluShl_toNat_of_lt {a b : Byte} (h : b.toNat < 8) : (aluShl a b).toNat = a.toNat * 2 ^ b.toNat % 256 := by
  rw [aluShl, if_pos h, BitVec.toNat_shiftLeft, Nat.shiftLeft_eq]

theorem aluShr_toNat_of_lt {a b : Byte} (h : b.toNat < 8) : (aluShr a b).toNat = a.toNat / 2 ^ b.toNat := by
  rw [aluShr, if_pos h, BitVec.toNat_ushiftRight, Nat.shiftRight_eq_div_pow]

theorem aluShl_of_ge {a b : Byte} (h : 8 ≤ b.toNat) : aluShl a b = 0x00#8 := if_neg (not_lt.mpr h)

theorem aluShr_of_ge {a b : Byte} (h : 8 ≤ b.toNat) : aluShr a b = 0x00#8 := if_neg (not_lt.mpr h)

theorem aluNot_toNat (a : Byte) : (aluNot a).toNat = 255 - a.toNat := BitVec.toNat_not

/-- Settles O23: the byte's own sum and product are modulo 256. -/
theorem addAndMulAreModulo256 : Obligations.AddAndMulAreModulo256 := fun ra rb s =>
  ⟨exists_next_of_binaryOp (f := aluAdd) (·.toNat = ((s.reg ra).toNat + (s.reg rb).toNat) % 256) rfl (BitVec.toNat_add ..),
    exists_next_of_binaryOp (f := aluMul) (·.toNat = ((s.reg ra).toNat * (s.reg rb).toNat) % 256) rfl (BitVec.toNat_mul ..)⟩

/-- Settles O24: past the guard MOD is an operation of two registers. -/
theorem modByNonzeroIsTheUnsignedRemainder : Obligations.ModByNonzeroIsTheUnsignedRemainder := fun ra rb s hrb =>
  exists_next_of_binaryOp (f := aluMod) (·.toNat = (s.reg ra).toNat % (s.reg rb).toNat) (if_neg hrb) BitVec.toNat_umod

/-- Settles O25: the guard's effect. -/
theorem modByZeroHaltsWithTheDiagnostic : Obligations.ModByZeroHaltsWithTheDiagnostic := fun _ _ s hrb =>
  ⟨_, if_pos hrb, rfl, rfl, rfl, rfl, (s.keepsBut_emit_halt .diagModZero .modZero).advance 2⟩

theorem compareFlags_of_eq {a b : Byte} (h : a.toNat = b.toNat) : compareFlags a b = 1#8 := if_pos h

theorem compareFlags_of_gt {a b : Byte} (h : b.toNat < a.toNat) : compareFlags a b = 2#8 := by
  rw [compareFlags, if_neg h.ne', if_pos h, flagG]

theorem compareFlags_of_lt {a b : Byte} (h : a.toNat < b.toNat) : compareFlags a b = 4#8 := by
  rw [compareFlags, if_neg h.ne, if_neg h.asymm, flagL]

/-- Settles O26: FL becomes the code of the comparison. -/
theorem cmpOverwritesFlWithOneCode : Obligations.CmpOverwritesFlWithOneCode := fun _ _ s =>
  ⟨_, execCmp_eq_next.mpr rfl, compareFlags_of_eq, compareFlags_of_gt, compareFlags_of_lt, rfl,
    (s.keepsBut_setFl _).advance 2⟩

/-- Settles O27: the byte's own and, or and exclusive or are bitwise. -/
theorem andOrXorAreBitwise : Obligations.AndOrXorAreBitwise := fun ra rb s =>
  ⟨exists_next_of_binaryOp (f := aluAnd)
      (fun v => ∀ k < 8, v.getLsbD k = ((s.reg ra).getLsbD k && (s.reg rb).getLsbD k)) rfl fun _ _ => BitVec.getLsbD_and,
    exists_next_of_binaryOp (f := aluOr)
      (fun v => ∀ k < 8, v.getLsbD k = ((s.reg ra).getLsbD k || (s.reg rb).getLsbD k)) rfl fun _ _ => BitVec.getLsbD_or,
    exists_next_of_binaryOp (f := aluXor)
      (fun v => ∀ k < 8, v.getLsbD k = Bool.xor ((s.reg ra).getLsbD k) ((s.reg rb).getLsbD k)) rfl
      fun _ _ => BitVec.getLsbD_xor⟩

/-- Settles O28: the complement is written to the register it is taken of. -/
theorem notIsTheComplement : Obligations.NotIsTheComplement := fun ra s =>
  ⟨_, execNot_eq_next.mpr rfl, by simpa using aluNot_toNat _, rfl, (s.keepsBut_setReg ra _).advance 1⟩

/-- Settles O29: below 8 the amount is used as it is. -/
theorem shiftsBelowEightScaleByPowersOfTwo : Obligations.ShiftsBelowEightScaleByPowersOfTwo := fun ra rb s h =>
  ⟨exists_next_of_binaryOp (f := aluShl) (·.toNat = (s.reg ra).toNat * 2 ^ (s.reg rb).toNat % 256) rfl (aluShl_toNat_of_lt h),
    exists_next_of_binaryOp (f := aluShr) (·.toNat = (s.reg ra).toNat / 2 ^ (s.reg rb).toNat) rfl (aluShr_toNat_of_lt h)⟩

/-- Settles O30: from 8 on the oversize values stand in. -/
theorem shiftsByEightOrMoreGiveZero : Obligations.ShiftsByEightOrMoreGiveZero := fun _ _ _ h =>
  ⟨exists_next_of_binaryOp (f := aluShl) (· = 0x00#8) rfl (aluShl_of_ge h),
    exists_next_of_binaryOp (f := aluShr) (· = 0x00#8) rfl (aluShr_of_ge h)⟩

end Sys2Proof.Machine

/-! PROOFS. The stack (spec/43_stack.md R150 to R154): one push, one pop, and any number of each. -/

namespace Sys2Proof.Machine

theorem pushAddr_toNat (s : State) : (pushAddr s).toNat = (s.sp.toNat + 255) % 256 := by
  unfold pushAddr
  bv_omega

@[simp] theorem pushAddr_add_one (s : State) : pushAddr s + 1 = s.sp := BitVec.sub_add_cancel ..

theorem sp_add_one_toNat (s : State) : (s.sp + 1).toNat = (s.sp.toNat + 1) % 256 := BitVec.toNat_add ..

theorem State.memRead_push_pushAddr {s : State} (hs : s.mem.wf = true) (v : Byte) :
    (s.push v).memRead (pushAddr s) = v := by
  rw [State.memRead_push hs, if_pos rfl]

theorem State.memRead_push_of_ne {s : State} (hs : s.mem.wf = true) (v : Byte) {a : Byte} (h : a ≠ pushAddr s) :
    (s.push v).memRead a = s.memRead a := by
  rw [State.memRead_push hs, if_neg h.symm]

theorem State.keepsBut_push {s : State} (hs : s.mem.wf = true) (v : Byte) :
    KeepsBut [.sp, .mem (pushAddr s)] s (s.push v) where
  reg _ _ := rfl
  fl _ := rfl
  sp h := absurd (by simp) h
  mem a h := State.memRead_push_of_ne hs v (by rintro rfl; exact h (by simp))
  status _ := rfl
  haltReason _ := rfl
  out _ := rfl

theorem State.keepsBut_popped (s : State) : KeepsBut [.sp] s s.popped where
  reg _ _ := rfl
  fl _ := rfl
  sp h := absurd (by simp) h
  mem _ _ := rfl
  status _ := rfl
  haltReason _ := rfl
  out _ := rfl

/-- An sp that ends where it started was kept after all. -/
theorem KeepsBut.drop_sp {p : List Part} {s t : State} (k : KeepsBut (.sp :: p) s t) (hsp : t.sp = s.sp) :
    KeepsBut p s t where
  reg r h := k.reg r (by simpa using h)
  fl h := k.fl (by simpa using h)
  sp _ := hsp
  mem a h := k.mem a (by simpa using h)
  status h := k.status (by simpa using h)
  haltReason h := k.haltReason (by simpa using h)
  out h := k.out (by simpa using h)

theorem exec_push (ra : Reg) (s : State) : exec (.push ra) s = .next ((s.push (s.reg ra)).advance 1) := rfl

theorem exec_pop (ra : Reg) (s : State) : exec (.pop ra) s = .next ((s.popped.setReg ra (popValue s)).advance 1) := rfl

/-- Settles O32: the push is the instruction's one update. -/
theorem pushStoresAtTheDecrementedSp : Obligations.PushStoresAtTheDecrementedSp := fun _ s hs =>
  ⟨_, exec_push .., rfl, pushAddr_toNat s, State.memRead_push_pushAddr hs _, rfl,
    (State.keepsBut_push hs _).advance 1⟩

/-- Settles O33: the pop moves sp, then the popped byte is written to regA. -/
theorem popLoadsFromSpAndIncrementsIt : Obligations.PopLoadsFromSpAndIncrementsIt := fun ra s =>
  ⟨_, exec_pop .., by simp [popValue], sp_add_one_toNat s, rfl,
    ((s.keepsBut_popped.mono (by simp)).trans ((s.popped.keepsBut_setReg ra _).mono (by simp))).advance 1⟩

/-- Settles O37: a fetch reads memory as the push left it. -/
theorem fetchSeesThePushedByte : Obligations.FetchSeesThePushedByte := by
  intro ra s t hs h
  rw [execPush_eq_next.mp h]
  exact State.memRead_push_pushAddr hs _

theorem execAll_cons {i : Instr} {s t : State} (h : exec i s = .next t) (is : List Instr) :
    execAll (i :: is) s = execAll is t := by
  simp only [execAll, h]

theorem execAll_append {is : List Instr} {s t : State} (h : execAll is s = .next t) (js : List Instr) :
    execAll (is ++ js) s = execAll js t := by
  induction is generalizing s with
  | nil => cases h; rfl
  | cons i is ih =>
    obtain ⟨u, hu⟩ := exec_exists_next i s
    rw [execAll_cons hu] at h
    rw [List.cons_append, execAll_cons hu, ih h]

/-- Settles O34: the pop reads at the address the push stored to and moves sp back. -/
theorem pushThenPopMovesTheValue : Obligations.PushThenPopMovesTheValue := by
  intro ra rb s hs
  refine ⟨_, (execAll_cons (exec_push ..) _).trans (execAll_cons (exec_pop ..) _), ?value, pushAddr_add_one s, ?pc,
    .drop_sp ?frame (pushAddr_add_one s)⟩
  case value => simp [popValue, State.memRead_push_pushAddr hs]
  case pc => exact BitVec.add_assoc ..
  case frame =>
    have hpush : KeepsBut [.sp, .reg rb, .mem (pushAddr s)] s ((s.push (s.reg ra)).advance 1) :=
      ((State.keepsBut_push hs _).mono (by simp)).advance 1
    exact ((hpush.trans ((State.keepsBut_popped _).mono (by simp))).trans
      ((State.keepsBut_setReg _ rb _).mono (by simp))).advance 1

theorem execAll_push (rs : List Reg) (s : State) :
    ∃ t, execAll (rs.map .push) s = .next t ∧ t.sp = s.sp - u8 rs.length := by
  induction rs generalizing s with
  | nil => exact ⟨s, rfl, (BitVec.sub_zero _).symm⟩
  | cons r rs ih =>
    obtain ⟨t, ht, hsp⟩ := ih ((s.push (s.reg r)).advance 1)
    refine ⟨t, (execAll_cons (exec_push ..) _).trans ht, ?_⟩
    rw [hsp, List.length_cons, u8_add, State.advance_sp, State.push_sp, pushAddr]
    bv_omega

theorem execAll_pop (rs : List Reg) (s : State) :
    ∃ t, execAll (rs.map .pop) s = .next t ∧ t.sp = s.sp + u8 rs.length := by
  induction rs generalizing s with
  | nil => exact ⟨s, rfl, (BitVec.add_zero _).symm⟩
  | cons r rs ih =>
    obtain ⟨t, ht, hsp⟩ := ih ((s.popped.setReg r (popValue s)).advance 1)
    refine ⟨t, (execAll_cons (exec_pop ..) _).trans ht, ?_⟩
    rw [hsp, List.length_cons, u8_add, State.advance_sp, State.setReg_sp, State.popped_sp]
    ac_rfl

/-- Settles O35: the pushes take from sp what the pops give back. -/
theorem equalPushesAndPopsRestoreSp : Obligations.EqualPushesAndPopsRestoreSp := by
  intro pushed popped s hlen
  obtain ⟨t, ht, hpushed⟩ := execAll_push pushed s
  obtain ⟨u, hu, hpopped⟩ := execAll_pop popped t
  refine ⟨u, (execAll_append ht _).trans hu, ?_⟩
  rw [hpopped, hpushed, hlen, BitVec.sub_add_cancel]

/-- A run of bytes depends on memory alone. -/
theorem State.bytesAt_congr {s t : State} (h : t.mem = s.mem) (a : Byte) (k : Nat) : t.bytesAt a k = s.bytesAt a k := by
  induction k generalizing a with
  | zero => rfl
  | succ k ih => rw [State.bytesAt, State.bytesAt, ih, State.memRead, h, State.memRead]

/-- Pops leave memory alone, so that they return a run of its bytes. -/
theorem popAll_eq_bytesAt (s : State) (k : Nat) : popAll s k = s.bytesAt s.sp k := by
  induction k generalizing s with
  | zero => rfl
  | succ k ih => rw [popAll, ih, State.bytesAt_congr s.popped_mem, State.popped_sp, popValue, State.bytesAt]

/-- A push stores just below the bytes that fewer than 256 pops would return. -/
theorem State.bytesAt_push {s : State} (hs : s.mem.wf = true) (v : Byte) {k : Nat} (hk : k < 256) :
    (s.push v).bytesAt s.sp k = s.bytesAt s.sp k := by
  refine List.ext_getElem (by simp) fun j hj _ => ?_
  rw [State.bytesAt_length] at hj
  have hne : s.sp + u8 j ≠ pushAddr s := by
    rw [← pushAddr_add_one, ← add_u8_succ]
    exact (ne_add_u8_succ _ (by omega)).symm
  rw [State.getElem_bytesAt, State.getElem_bytesAt, State.memRead_push_of_ne hs v hne]

/-- The first pop after a push returns its byte, and the next ones what pops would have returned before it. -/
theorem popAll_push {s : State} (hs : s.mem.wf = true) (v : Byte) {k : Nat} (hk : k < 256) :
    popAll (s.push v) (k + 1) = v :: popAll s k := by
  rw [popAll_eq_bytesAt, State.bytesAt, State.push_sp, State.memRead_push_pushAddr hs, pushAddr_add_one,
    State.bytesAt_push hs v hk, popAll_eq_bytesAt]

theorem State.pushAll_append (s : State) (vs ws : List Byte) : s.pushAll (vs ++ ws) = (s.pushAll vs).pushAll ws := by
  induction vs generalizing s with
  | nil => rfl
  | cons v vs ih => exact ih (s.push v)

theorem State.pushAll_wf {s : State} (hs : s.mem.wf = true) (vs : List Byte) : (s.pushAll vs).mem.wf = true := by
  induction vs generalizing s with
  | nil => exact hs
  | cons v vs ih => exact ih (State.push_wf v hs)

theorem State.pushAll_sp_add (s : State) (vs : List Byte) : (s.pushAll vs).sp + u8 vs.length = s.sp := by
  induction vs generalizing s with
  | nil => exact BitVec.add_zero _
  | cons v vs ih =>
    rw [List.length_cons, u8_add, ← BitVec.add_assoc]
    exact (congrArg (· + 1) (ih (s.push v))).trans (pushAddr_add_one s)

theorem popAll_pushAll {s : State} (hs : s.mem.wf = true) {vs : List Byte} (hvs : vs.length ≤ 256) :
    popAll (s.pushAll vs) vs.length = vs.reverse := by
  induction vs using List.reverseRecOn with
  | nil => rfl
  | append_singleton vs v ih =>
    rw [List.length_append, List.length_singleton] at hvs
    rw [State.pushAll_append, List.length_append, List.length_singleton, List.reverse_concat, ← ih (by omega)]
    exact popAll_push (State.pushAll_wf hs vs) v (by omega)

/-- Settles O36: the last pushed byte is popped first, and no push of at most 256 reaches the bytes below it. -/
theorem popsReturnThePushesInReverse : Obligations.PopsReturnThePushesInReverse := fun values s hs hlen =>
  ⟨popAll_pushAll hs hlen, s.pushAll_sp_add values⟩

end Sys2Proof.Machine

/-! PROOFS. Control transfer (spec/44_control_transfer.md R160 to R174): JMP, CALL and RET, and the conditional jumps by what
the last CMP found. -/

namespace Sys2Proof.Machine

/-- Settles O38: the bias and the advance cancel. -/
theorem jmpGoesToTheRegisterValue : Obligations.JmpGoesToTheRegisterValue := fun _ s =>
  ⟨_, execJmp_eq_next.mpr rfl, s.jump_advance_pc _, ((KeepsBut.refl [] s).jump _).advance 1⟩

/-- Settles O43: a push, then a jump. -/
theorem callPushesPcPlusOneAndJumps : Obligations.CallPushesPcPlusOneAndJumps := fun _ s hs =>
  ⟨_, execCall_eq_next.mpr rfl, rfl, pushAddr_toNat s, State.memRead_push_pushAddr hs _, State.jump_advance_pc _ _,
    ((State.keepsBut_push hs _).jump _).advance 1⟩

theorem KeepsBut.setPc {p : List Part} {s t : State} (k : KeepsBut p s t) (target : Byte) : KeepsBut p s (t.setPc target) :=
  ⟨k.reg, k.fl, k.sp, k.mem, k.status, k.haltReason, k.out⟩

/-- Settles O44: the popped byte goes to pc, and the advance adds 1. -/
theorem retContinuesAfterThePoppedByte : Obligations.RetContinuesAfterThePoppedByte := fun s =>
  ⟨_, execRet_eq_next.mpr rfl, rfl, sp_add_one_toNat s, (s.keepsBut_popped.setPc _).advance 0⟩

/-- Settles O45: RET pops the byte that CALL pushed, from where it pushed it. -/
theorem returnResumesAfterTheCall : Obligations.ReturnResumesAfterTheCall := by
  intro ra s t u hs hcall hsp hslot
  rw [execCall_eq_next.mp hcall] at hsp hslot
  have hbyte : u.memRead u.sp = s.pc + 1 := hslot.trans (State.memRead_push_pushAddr hs _)
  refine ⟨_, execRet_eq_next.mpr rfl, ?pc, ?sp⟩
  case pc =>
    rw [State.advance_pc, State.setPc_pc, popValue, hbyte]
    exact BitVec.add_assoc ..
  case sp => exact (congrArg (· + 1) hsp).trans (pushAddr_add_one s)

/-- The values FL can hold (spec/10_state.md R25), as numbers. -/
theorem toNat_of_legalFl {fl : Byte} (h : legalFl fl = true) :
    fl.toNat = 0 ∨ fl.toNat = 1 ∨ fl.toNat = 2 ∨ fl.toNat = 4 := by
  simpa [legalFl, flagE, flagG, flagL, ← BitVec.toNat_inj, or_assoc] using h

/-- Settles O40: of the four values, JLE's test holds on 0 and 2 and JGE's on 1 and 4. -/
theorem jleIsTakenExactlyWhenJgeIsNot : Obligations.JleIsTakenExactlyWhenJgeIsNot := by
  intro ra s hfl
  have hfl := toNat_of_legalFl hfl
  by_cases hle : s.fl.toNat = 2 ∨ s.fl.toNat = 0
  case pos =>
    have hge : ¬ (s.fl.toNat = 1 ∨ s.fl.toNat = 4) := by omega
    refine ⟨_, _, jumpsOnTest_jle.exec_taken hle ra, jumpsOnTest_jge.exec_notTaken hge ra, ?_⟩
    rw [State.jump_advance_pc, s.advance_pc 1]
    exact ⟨iff_of_true rfl rfl, eq_comm⟩
  case neg =>
    have hge : s.fl.toNat = 1 ∨ s.fl.toNat = 4 := by omega
    refine ⟨_, _, jumpsOnTest_jle.exec_notTaken hle ra, jumpsOnTest_jge.exec_taken hge ra, ?_⟩
    rw [State.jump_advance_pc, s.advance_pc 1]
    exact ⟨eq_comm, iff_of_true rfl rfl⟩

/-- A jump's test, on the FL that CMP of `a` with `b` leaves, is a relation of the two (R169). -/
def JumpsOnRelation (jump : Reg → Instr) (rel : Nat → Nat → Prop) : Prop :=
  ∃ test, JumpsOnTest jump test ∧ ∀ a b : Byte, test (compareFlags a b).toNat ↔ rel a.toNat b.toNat

/-- The relation may be shown case by case of the comparison. -/
theorem JumpsOnTest.jumpsOnRelation {jump : Reg → Instr} {test : Nat → Prop} {rel : Nat → Nat → Prop}
    (hj : JumpsOnTest jump test) (hlt : ∀ m n, m < n → (test 4 ↔ rel m n)) (heq : ∀ n, test 1 ↔ rel n n)
    (hgt : ∀ m n, n < m → (test 2 ↔ rel m n)) : JumpsOnRelation jump rel := by
  refine ⟨test, hj, fun a b => ?_⟩
  rcases lt_trichotomy a.toNat b.toNat with h | h | h
  · rw [compareFlags_of_lt h]; exact hlt _ _ h
  · rw [compareFlags_of_eq h, h]; exact heq _
  · rw [compareFlags_of_gt h]; exact hgt _ _ h

theorem jumpsOnRelation_jeq : JumpsOnRelation .jeq (fun a b => a = b) :=
  jumpsOnTest_jeq.jumpsOnRelation (by omega) (by omega) (by omega)
theorem jumpsOnRelation_jne : JumpsOnRelation .jne (fun a b => a ≠ b) :=
  jumpsOnTest_jne.jumpsOnRelation (by omega) (by omega) (by omega)
theorem jumpsOnRelation_jge : JumpsOnRelation .jge (fun a b => a ≤ b) :=
  jumpsOnTest_jge.jumpsOnRelation (by omega) (by omega) (by omega)
theorem jumpsOnRelation_jgt : JumpsOnRelation .jgt (fun a b => a < b) :=
  jumpsOnTest_jgt.jumpsOnRelation (by omega) (by omega) (by omega)
theorem jumpsOnRelation_jle : JumpsOnRelation .jle (fun a b => b < a) :=
  jumpsOnTest_jle.jumpsOnRelation (by omega) (by omega) (by omega)
theorem jumpsOnRelation_jlt : JumpsOnRelation .jlt (fun a b => b < a) :=
  jumpsOnTest_jlt.jumpsOnRelation (by omega) (by omega) (by omega)

theorem exec_cmp (ra rb : Reg) (s : State) :
    exec (.cmp ra rb) s = .next ((s.setFl (compareFlags (s.reg ra) (s.reg rb))).advance 2) := rfl

theorem JumpsOnRelation.execAll_cmp_jump {jump : Reg → Instr} {rel : Nat → Nat → Prop} (hj : JumpsOnRelation jump rel)
    (ra rb rt : Reg) (s : State) : ∃ t, execAll [.cmp ra rb, jump rt] s = .next t ∧
      (rel (s.reg ra).toNat (s.reg rb).toNat → t.pc = s.reg rt) ∧
      (¬ rel (s.reg ra).toNat (s.reg rb).toNat → t.pc = s.pc + 5) := by
  obtain ⟨test, htest, hrel⟩ := hj
  have hrel := hrel (s.reg ra) (s.reg rb)
  rw [execAll_cons (exec_cmp ra rb s), ← hrel]
  by_cases h : test (compareFlags (s.reg ra) (s.reg rb)).toNat
  case pos => exact ⟨_, execAll_cons (htest.exec_taken h rt) _, fun _ => State.jump_advance_pc _ _, absurd h⟩
  case neg => exact ⟨_, execAll_cons (htest.exec_notTaken h rt) _, fun ht => absurd ht h, fun _ => BitVec.add_assoc ..⟩

/-- Settles O42: CMP leaves the code of its comparison in FL, on which each jump's test is the row's relation. -/
theorem jumpsAfterCompareFollowTheTable : Obligations.JumpsAfterCompareFollowTheTable := by
  intro jump hjump ra rb rt s
  have hj : JumpsOnRelation jump.1 jump.2 := by
    revert jump
    simp only [List.forall_mem_cons]
    exact ⟨jumpsOnRelation_jeq, jumpsOnRelation_jne, jumpsOnRelation_jge, jumpsOnRelation_jgt, jumpsOnRelation_jle,
      jumpsOnRelation_jlt, List.forall_mem_nil _⟩
  exact hj.execAll_cmp_jump ra rb rt s

end Sys2Proof.Machine

/-! PROOFS. Unrecognised opcodes (spec/40_engine.md R97, spec/70_reset_and_hazards.md R234): the no-op of one, and of any number
over zero memory. -/

namespace Sys2Proof.Machine

theorem execUnrecognised_eq (ir : Byte) (s : State) :
    exec (.unrecognised ir) s = .next (s.setPc (s.pc + u8 (ir.toNat / 64 + 1))) := by
  rw [← operandCount_eq]
  rfl

/-- A RUNNING machine with no row's byte at pc makes the no-op (decision D6, log 10). -/
theorem step_of_unrecognised {s : State} (hrun : s.status = .running)
    (h : ∀ row ∈ opcodeMap, row.byte ≠ s.memRead s.pc) :
    step s = .next (s.setPc (s.pc + u8 ((s.memRead s.pc).toNat / 64 + 1))) := by
  have hdecode : decodeInstr (fetch s).ir (fetch s).ops = .unrecognised (s.memRead s.pc) :=
    decodeInstr_of_none (decodeOp_eq_none.mpr h) _
  rw [step_of_running hrun, hdecode, execUnrecognised_eq]

/-- Settles O46: no effect but the advance, and the byte at pc decodes to the class. -/
theorem unrecognisedOpcodeIsANoOp : Obligations.UnrecognisedOpcodeIsANoOp :=
  ⟨fun ir s => ⟨_, execUnrecognised_eq ir s, rfl, (KeepsBut.refl [] s).advance (ir.toNat / 64)⟩,
    fun _ => step_of_unrecognised⟩

theorem opcodeMap_byte_ne_zero : ∀ row ∈ opcodeMap, row.byte ≠ 0x00#8 := by decide

theorem step_of_zero_at_pc {s : State} (hrun : s.status = .running) (h : s.memRead s.pc = 0x00#8) :
    step s = .next (s.setPc (s.pc + 1)) := by
  have hrows : ∀ row ∈ opcodeMap, row.byte ≠ s.memRead s.pc := h ▸ opcodeMap_byte_ne_zero
  rw [step_of_unrecognised hrun hrows, h]
  rfl

theorem run_succ {s t : State} (h : step s = .next t) (k : Nat) :
    Host.Core.run core (k + 1) s = Host.Core.run core k t := by
  have hcore : core.step s = .next t := h
  simp only [Host.Core.run, hcore]

/-- Settles O47: by induction on the number of steps; a no-op leaves memory and the status as they are. -/
theorem zeroMemoryRunsNoOpsForever : Obligations.ZeroMemoryRunsNoOpsForever := by
  intro k s hrun hzero
  induction k generalizing s with
  | zero =>
    rw [BitVec.add_zero]
    rfl
  | succ k ih =>
    rw [run_succ (step_of_zero_at_pc hrun (hzero s.pc)), add_u8_succ]
    exact ih (s.setPc (s.pc + 1)) hrun hzero

end Sys2Proof.Machine

/-! PROOFS. The whole machine (spec/10_state.md R28 to R30, spec/60_exceptions.md R200, R205): what every step does to the
status, and what run start does. -/

namespace Sys2Proof.Machine

theorem step_of_idle {s : State} (hs : s.status = .idle) : step s = runStart s := by
  simp only [step, transition, hs]

theorem step_of_halted {s : State} (hs : s.status = .halted) : step s = .refused .halted := by
  simp only [step, transition, hs]

theorem runStart_of_idle {s : State} (hs : s.status = .idle) :
    runStart s = .next { s.setSp (s.reg 7) with status := .running } :=
  runStart_eq_next.mpr ⟨hs, rfl⟩

/-- Settles O3: an IDLE machine's step is its run start, which writes sp and the status. -/
theorem runStartCopiesR7ToSp : Obligations.RunStartCopiesR7ToSp := by
  refine ⟨fun s hs => ⟨_, (step_of_idle hs).trans (runStart_of_idle hs), runStart_of_idle hs, rfl, rfl, rfl, ?frame⟩,
    _, (step_of_idle rfl).trans (runStart_of_idle rfl), rfl⟩
  case frame =>
    exact {
      reg := fun _ _ => rfl
      fl := fun _ => rfl
      sp := fun h => absurd (by simp) h
      mem := fun _ _ => rfl
      status := fun h => absurd (by simp) h
      haltReason := fun _ => rfl
      out := fun _ => rfl }

theorem step_exists_next {s : State} (hs : s.status ≠ .halted) : ∃ t, step s = .next t := by
  cases h : s.status with
  | idle => exact ⟨_, (step_of_idle h).trans (runStart_of_idle h)⟩
  | running => rw [step_of_running h]; exact exec_exists_next _ s
  | halted => exact absurd h hs

/-- Settles O49: a HALTED machine's step is the refusal, and any other has a next state. -/
theorem onlyAHaltedMachineHasNoStep : Obligations.OnlyAHaltedMachineHasNoStep := by
  intro s
  refine ⟨nofun, fun r => ?_⟩
  by_cases hs : s.status = .halted
  case pos => simp [step_of_halted hs, hs, eq_comm]
  case neg =>
    obtain ⟨t, ht⟩ := step_exists_next hs
    simp [ht, hs]

theorem Halts.haltReason_ne_none {i : Instr} {s t : State} (hi : Halts i s) (h : exec i s = .next t) :
    t.haltReason ≠ .none := by
  obtain rfl | ⟨ra, rb, rfl, hrb⟩ := hi
  · simp [execHlt_eq_next.mp h]
  · simp [execMod_eq_next.mp h, hrb]

/-- Only the two halting effects write the halt reason. -/
theorem Effect.haltReason_eq {i : Instr} {s t : State} (e : Effect i s t) (hi : ¬ Halts i s) :
    t.haltReason = s.haltReason := by
  cases e with
  | hlt => exact absurd (.inl rfl) hi
  | modZero ra rb _ hrb => exact absurd (.inr ⟨ra, rb, rfl, hrb⟩) hi
  | _ => rfl

/-- Settles O50: run start makes the machine RUNNING, and of the instructions only the halting ones write status and halt
reason. -/
theorem statusMovesOnlyForward : Obligations.StatusMovesOnlyForward := by
  intro s t h
  rcases step_cases h with ⟨hidle, rfl⟩ | ⟨hrun, hexec⟩
  · exact .inl ⟨hidle, rfl, rfl⟩
  · by_cases hi : Halts (decodeInstr (fetch s).ir (fetch s).ops) s
    case pos => exact .inr (.inr ⟨hrun, hi.status_eq hexec, hi.haltReason_ne_none hexec⟩)
    case neg =>
      have e := exec_effect hexec
      exact .inr (.inl ⟨hrun, (e.status_eq hi).trans hrun, e.haltReason_eq hi⟩)

end Sys2Proof.Machine

/-! PROOFS. What an instruction writes (spec/20_memory.md R52, spec/10_state.md R22, R23): the byte of memory, the register and sp,
each read off its effect. -/

namespace Sys2Proof.Machine

/-- A push writes one byte, and only PUSH and CALL push. -/
theorem Effect.memRead_ne {i : Instr} {s t : State} (e : Effect i s t) (hs : s.mem.wf = true) {a : Byte}
    (hne : t.memRead a ≠ s.memRead a) : a = pushAddr s ∧ ∃ ra, i = .push ra ∨ i = .call ra := by
  cases e with
  | push ra => exact ⟨by_contra fun h => hne (State.memRead_push_of_ne hs _ h), ra, .inl rfl⟩
  | call ra => exact ⟨by_contra fun h => hne (State.memRead_push_of_ne hs _ h), ra, .inr rfl⟩
  | _ => exact absurd rfl hne

/-- Settles O52: run start leaves memory alone, and an instruction's effect says which byte it writes. -/
theorem onlyPushAndCallChangeMemory : Obligations.OnlyPushAndCallChangeMemory := by
  intro s t a hs h hne
  rcases step_cases h with ⟨-, rfl⟩ | ⟨hrun, hexec⟩
  · exact absurd rfl hne
  · exact ⟨hrun, (exec_effect hexec).memRead_ne hs hne⟩

theorem State.reg_setReg_of_ne (s : State) {r ra : Reg} (v : Byte) (h : r ≠ ra) : (s.setReg ra v).reg r = s.reg r := by
  rw [State.reg_setReg, if_neg h.symm]

/-- The instructions that write a register, by R23's table. -/
def WritesReg (r : Reg) (i : Instr) : Prop :=
  (∃ imm8, i = .ldi r imm8) ∨ i = .pop r ∨ i = .not r ∨
    ∃ rb, ∃ op ∈ [Instr.add, .mul, .mod, .and, .or, .xor, .shl, .shr], i = op r rb

/-- An effect writes no register, or the one of an instruction of the table. -/
theorem Effect.reg_cases {i : Instr} {s t : State} (e : Effect i s t) :
    (∀ r, t.reg r = s.reg r) ∨ ∃ ra, WritesReg ra i ∧ ∀ r, r ≠ ra → t.reg r = s.reg r := by
  cases e with
  | ldi ra imm8 => exact .inr ⟨ra, .inl ⟨imm8, rfl⟩, fun _ => State.reg_setReg_of_ne _ _⟩
  | pop ra => exact .inr ⟨ra, .inr (.inl rfl), fun _ => State.reg_setReg_of_ne _ _⟩
  | not ra => exact .inr ⟨ra, .inr (.inr (.inl rfl)), fun _ => State.reg_setReg_of_ne _ _⟩
  | binary op f ra rb _ hop =>
    have hmem : op ∈ [Instr.add, .mul, .mod, .and, .or, .xor, .shl, .shr] := by
      revert op
      simp
    exact .inr ⟨ra, .inr (.inr (.inr ⟨rb, op, hmem, rfl⟩)), fun _ => State.reg_setReg_of_ne _ _⟩
  | mod ra rb => exact .inr ⟨ra, .inr (.inr (.inr ⟨rb, .mod, by simp, rfl⟩)), fun _ => State.reg_setReg_of_ne _ _⟩
  | _ => exact .inl fun _ => rfl

/-- Settles O53: a changed register is the one that the effect writes. -/
theorem aStepWritesAtMostOneRegister : Obligations.AStepWritesAtMostOneRegister := by
  intro s t r h hne
  rcases step_cases h with ⟨-, rfl⟩ | ⟨hrun, hexec⟩
  · exact absurd rfl hne
  · rcases (exec_effect hexec).reg_cases with hkeep | ⟨ra, hwrites, hother⟩
    · exact absurd (hkeep r) hne
    · obtain rfl : r = ra := by_contra fun h => hne (hother r h)
      exact ⟨hrun, hother, hwrites⟩

/-- How each instruction moves sp. -/
def spAfter (i : Instr) (sp : Byte) : Byte :=
  match i with
  | .push _ | .call _ => sp - 1
  | .pop _ | .ret => sp + 1
  | _ => sp

theorem Effect.sp_eq {i : Instr} {s t : State} (e : Effect i s t) : t.sp = spAfter i s.sp := by
  cases e with
  | binary op f ra rb _ hop => revert op; simp [spAfter]
  | taken op ra _ hop => revert op; simp [spAfter]
  | notTaken op ra _ hop => revert op; simp [spAfter]
  | _ => rfl

/-- Settles O54: sp moves by the instruction alone; of the stack operations only POP writes a register, the one it names. -/
theorem r7AndSpAreIndependentWhileRunning : Obligations.R7AndSpAreIndependentWhileRunning := by
  refine ⟨fun i s t u v ht hu => ?sp, fun ra s t h => ?pushes, fun ra s t hra h => ?pop⟩
  case sp => rw [(exec_effect ht).sp_eq, (exec_effect hu).sp_eq, State.setReg_sp]
  case pushes =>
    rcases h with h | h | h
    · rw [execPush_eq_next.mp h]; rfl
    · rw [execCall_eq_next.mp h]; rfl
    · rw [execRet_eq_next.mp h]; rfl
  case pop => rw [execPop_eq_next.mp h, State.reg_advance, State.reg_setReg_of_ne _ _ hra.symm, State.reg_popped]

/-- The instructions that write pc themselves, RET aside. -/
def IsTransfer (i : Instr) : Prop :=
  ∃ ra, ∃ op ∈ [Instr.jmp, .jeq, .jne, .jgt, .jlt, .jle, .jge, .call], i = op ra

/-- Any other instruction only advances, by its own length. -/
theorem Effect.pc_eq {i : Instr} {s t : State} (e : Effect i s t) (hret : i ≠ .ret) (hi : ¬ IsTransfer i) :
    t.pc = s.pc + u8 (encode i).length := by
  cases e with
  | call ra => exact absurd ⟨ra, .call, by simp, rfl⟩ hi
  | taken op ra _ hop => exact absurd ⟨ra, op, by revert op; simp, rfl⟩ hi
  | notTaken op ra _ hop => exact absurd ⟨ra, op, by revert op; simp, rfl⟩ hi
  | ret => exact absurd rfl hret
  | binary op f ra rb _ hop =>
    have hlen : (encode (op ra rb)).length = 3 := by
      revert op
      simp [encode, Instr.operandBytes]
    rw [hlen]
    rfl
  | unrecognised ir => rw [length_encode, Nat.add_comm]; rfl
  | _ => rfl

/-- Settles O55: only the transfers write pc but by the advance, and the advance is the encoding's length. -/
theorem nonTransfersAdvanceByTheirEncodedLength : Obligations.NonTransfersAdvanceByTheirEncodedLength := by
  intro i s t h hret hi
  exact (exec_effect h).pc_eq hret fun ⟨ra, op, hop, heq⟩ => hi ra op hop heq

end Sys2Proof.Machine

/-! PROOFS. The output is never read (spec/60_exceptions.md R213): events put before it go through a step unchanged. -/

namespace Sys2Proof.Machine

/-- The state with events before its output. -/
def State.withEarlier (s : State) (earlier : List Event) : State := { s with out := earlier ++ s.out }

theorem fetch_withEarlier (s : State) (earlier : List Event) : fetch (s.withEarlier earlier) = fetch s := by
  have hops := State.bytesAt_congr (s := s) (t := s.withEarlier earlier) rfl (s.pc + 1) (operandCount (s.memRead s.pc))
  exact congrArg (Fetched.mk (s.memRead s.pc)) hops

theorem State.emit_withEarlier (s : State) (earlier : List Event) (e : Event) :
    (s.withEarlier earlier).emit e = (s.emit e).withEarlier earlier := by
  simp [State.withEarlier, State.emit]

/-- PRN and MOD's guard append to the output, a jump's condition and MOD's test do not read it, and nothing else names it. -/
theorem exec_withEarlier {i : Instr} {s t : State} (h : exec i s = .next t) (earlier : List Event) :
    exec i (s.withEarlier earlier) = .next (t.withEarlier earlier) := by
  cases i with
  | prn ra =>
    rw [execPrn_eq_next.mp h]
    exact execPrn_eq_next.mpr (congrArg (State.advance · 1) (State.emit_withEarlier ..).symm)
  | mod ra rb =>
    rw [execMod_eq_next.mp h]
    refine execMod_eq_next.mpr ?_
    by_cases hrb : s.reg rb = 0x00#8
    · rw [if_pos hrb, if_pos (show (s.withEarlier earlier).reg rb = 0x00#8 from hrb), State.emit_withEarlier]
      rfl
    · rw [if_neg hrb, if_neg (show (s.withEarlier earlier).reg rb ≠ 0x00#8 from hrb)]
      rfl
  | jeq ra | jne ra | jgt ra | jlt ra | jle ra | jge ra =>
    rw [jumpIf_eq_next.mp h]
    exact jumpIf_eq_next.mpr (apply_ite (State.withEarlier · earlier) _ _ _)
  | _ => cases h; rfl

theorem step_withEarlier {s t : State} (h : step s = .next t) (earlier : List Event) :
    step (s.withEarlier earlier) = .next (t.withEarlier earlier) := by
  rcases step_cases h with ⟨hidle, rfl⟩ | ⟨hrun, hexec⟩
  · have hidle' : (s.withEarlier earlier).status = .idle := hidle
    rw [step_of_idle hidle', runStart_of_idle hidle']
    rfl
  · have hrun' : (s.withEarlier earlier).status = .running := hrun
    rw [step_of_running hrun', fetch_withEarlier, exec_withEarlier hexec]

/-- Settles O56: run start reads R7 alone, and a RUNNING machine fetches and executes the same instruction. -/
theorem earlierOutputNeverInfluencesAStep : Obligations.EarlierOutputNeverInfluencesAStep :=
  fun _ _ earlier h => step_withEarlier h earlier

end Sys2Proof.Machine
